-- ==== Sys2Proof/Word.lean ====
section
/-! DEFINITION. The word types of the unit (00_scope.md R9, 10_state.md R21). -/

namespace Sys2Proof

/-- A host-visible register: 64 bits (10_state.md R21). -/
abbrev Word := BitVec 64

/-- One byte of a key or of a character string (20_memory.md R55). -/
abbrev Byte := BitVec 8

/-- One radix-16 digit value, 0 to 15 (00_scope.md R15). -/
abbrev Digit := BitVec 4

end Sys2Proof
end

