-- ==== Sys2Proof/Syntax.lean ====
section
/-! DEFINITION. The command set: one constructor per row of spec/opcode_table.json. -/

namespace Sys2Proof

/-- The twelve commands (30_encoding.md R76). `width` is the `WIDTH` field in bits (R72), `klen` the
`KLEN` field in bytes (R73), each a plain unsigned number; every other operand is implicit (R82). -/
inductive Instr where
  | nop
  | inv (width : Nat)
  | affLoad (width : Nat)
  | affScr
  | affUnscr
  | affClear
  | hexEnc (width : Nat)
  | hexDec (width : Nat)
  | fpeLoad (width klen : Nat)
  | fpeScr
  | fpeUnscr
  | fpeClear
  deriving DecidableEq, Repr, Inhabited

end Sys2Proof
end

