-- ==== Sys2Proof/WellFormed.lean ====
section
/-! DEFINITION. Which terms of `Instr` a command word can carry. -/

namespace Sys2Proof

/-- `WIDTH` is an 8-bit number (30_encoding.md R72). -/
def widthFits (n : Nat) : Bool := decide (n ≤ 255)

/-- `KLEN` is a 6-bit number (30_encoding.md R73). -/
def klenFits (k : Nat) : Bool := decide (k ≤ 63)

/-- Every field of the command fits its place in the command word (30_encoding.md R70). A field that
fits but is unsupported, such as width 24, is well formed (R80). -/
def Instr.wellFormed : Instr → Bool
  | .nop => true
  | .inv n => widthFits n
  | .affLoad n => widthFits n
  | .affScr => true
  | .affUnscr => true
  | .affClear => true
  | .hexEnc n => widthFits n
  | .hexDec n => widthFits n
  | .fpeLoad n k => widthFits n && klenFits k
  | .fpeScr => true
  | .fpeUnscr => true
  | .fpeClear => true

end Sys2Proof
end

