-- ==== Sys2Proof/Decode.lean ====
section
/-! DEFINITION. The command word: its fields, legality, the decoder and the encoder (30_encoding.md). -/

namespace Sys2Proof

/-- `v[hi:lo]`, the field from bit `hi` down to bit `lo`, read as an unsigned integer (00_scope.md R9). -/
def bits (v : Word) (hi lo : Nat) : Nat := v.toNat / 2 ^ lo % 2 ^ (hi + 1 - lo)

/-- The opcodes that select a command (30_encoding.md R76). -/
inductive Opcode where
  | nop
  | inv
  | affLoad
  | affScr
  | affUnscr
  | affClear
  | hexEnc
  | hexDec
  | fpeLoad
  | fpeScr
  | fpeUnscr
  | fpeClear
  deriving DecidableEq, Repr, Inhabited

/-- The value of the `OP` field (30_encoding.md R76). -/
def Opcode.toNat : Opcode → Nat
  | .nop => 0x0
  | .inv => 0x1
  | .affLoad => 0x2
  | .affScr => 0x3
  | .affUnscr => 0x4
  | .affClear => 0x5
  | .hexEnc => 0x6
  | .hexDec => 0x7
  | .fpeLoad => 0x8
  | .fpeScr => 0x9
  | .fpeUnscr => 0xA
  | .fpeClear => 0xB

/-- The opcode of an `OP` value; 0xC to 0xF are reserved (30_encoding.md R71, R79). -/
def Opcode.ofNat? : Nat → Option Opcode
  | 0x0 => some .nop
  | 0x1 => some .inv
  | 0x2 => some .affLoad
  | 0x3 => some .affScr
  | 0x4 => some .affUnscr
  | 0x5 => some .affClear
  | 0x6 => some .hexEnc
  | 0x7 => some .hexDec
  | 0x8 => some .fpeLoad
  | 0x9 => some .fpeScr
  | 0xA => some .fpeUnscr
  | 0xB => some .fpeClear
  | _ => none

/-- The column "uses WIDTH" of 30_encoding.md R76. -/
def Opcode.usesWidth : Opcode → Bool
  | .inv => true
  | .affLoad => true
  | .hexEnc => true
  | .hexDec => true
  | .fpeLoad => true
  | .nop => false
  | .affScr => false
  | .affUnscr => false
  | .affClear => false
  | .fpeScr => false
  | .fpeUnscr => false
  | .fpeClear => false

/-- The column "uses KLEN" of 30_encoding.md R76. -/
def Opcode.usesKlen : Opcode → Bool
  | .fpeLoad => true
  | .nop => false
  | .inv => false
  | .affLoad => false
  | .affScr => false
  | .affUnscr => false
  | .affClear => false
  | .hexEnc => false
  | .hexDec => false
  | .fpeScr => false
  | .fpeUnscr => false
  | .fpeClear => false

/-- The command an opcode selects, with the fields it uses. -/
def Opcode.instr (w k : Nat) : Opcode → Instr
  | .nop => .nop
  | .inv => .inv w
  | .affLoad => .affLoad w
  | .affScr => .affScr
  | .affUnscr => .affUnscr
  | .affClear => .affClear
  | .hexEnc => .hexEnc w
  | .hexDec => .hexDec w
  | .fpeLoad => .fpeLoad w k
  | .fpeScr => .fpeScr
  | .fpeUnscr => .fpeUnscr
  | .fpeClear => .fpeClear

/-- Why a command value is illegal; each case completes with `ILLEGAL_COMMAND` (60_exceptions.md
R206). -/
inductive Illegal where
  /-- `RSVD` or `CMD[63:32]` is not 0 (30_encoding.md R74, R75). -/
  | reservedBits
  /-- An opcode 0xC to 0xF (R79). -/
  | reservedOpcode
  /-- `WIDTH` is not 0 for an opcode that does not use it (R77). -/
  | unusedWidth
  /-- `KLEN` is not 0 for an opcode that does not use it (R77). -/
  | unusedKlen
  deriving DecidableEq, Repr, Inhabited

/-- The command of the 64-bit value written to `CMD`, or why it is illegal (30_encoding.md R70 to
R80). -/
def decode (c : Word) : Except Illegal Instr :=
  if bits c 63 18 ≠ 0 then .error .reservedBits
  else match Opcode.ofNat? (bits c 3 0) with
    | none => .error .reservedOpcode
    | some op =>
      if op.usesWidth = false ∧ bits c 11 4 ≠ 0 then .error .unusedWidth
      else if op.usesKlen = false ∧ bits c 17 12 ≠ 0 then .error .unusedKlen
      else .ok (op.instr (bits c 11 4) (bits c 17 12))

/-- Legality as the spec writes it (30_encoding.md R78). -/
def legal (c : Word) : Bool :=
  decide (bits c 63 18 = 0 ∧ bits c 3 0 ≤ 0xB
    ∧ (bits c 3 0 ∈ [0x1, 0x2, 0x6, 0x7, 0x8] ∨ bits c 11 4 = 0)
    ∧ (bits c 3 0 = 0x8 ∨ bits c 17 12 = 0))

/-- A row of spec/opcode_table.json: an instruction word `c` is the row's when `c & mask = match`. -/
structure TableRow where
  mask : BitVec 32
  pattern : BitVec 32
  deriving DecidableEq, Repr

/-- The rows of spec/opcode_table.json, in its order. -/
def opcodeTable : List TableRow :=
  [ ⟨0xFFFFFFFF, 0x00000000⟩, ⟨0xFFFFF00F, 0x00000001⟩, ⟨0xFFFFF00F, 0x00000002⟩,
    ⟨0xFFFFFFFF, 0x00000003⟩, ⟨0xFFFFFFFF, 0x00000004⟩, ⟨0xFFFFFFFF, 0x00000005⟩,
    ⟨0xFFFFF00F, 0x00000006⟩, ⟨0xFFFFF00F, 0x00000007⟩, ⟨0xFFFC000F, 0x00000008⟩,
    ⟨0xFFFFFFFF, 0x00000009⟩, ⟨0xFFFFFFFF, 0x0000000A⟩, ⟨0xFFFFFFFF, 0x0000000B⟩ ]

/-- The words of a row. -/
def TableRow.covers (r : TableRow) (c : BitVec 32) : Bool := (c &&& r.mask) == r.pattern

/-- Legality as the table gives it: some row covers `c[31:0]`, and `c[63:32] = 0` (30_encoding.md
R78). -/
def tableLegal (c : Word) : Bool :=
  opcodeTable.any (fun r => r.covers (c.setWidth 32)) && decide (bits c 63 32 = 0)

/-- The command word from its fields, in the order of the bit diagram of 30_encoding.md R70. -/
def commandWord (op w k : Nat) : Word :=
  0#32 ++ (0#14 ++ (BitVec.ofNat 6 k ++ (BitVec.ofNat 8 w ++ BitVec.ofNat 4 op)))

/-- The opcode of a command (30_encoding.md R76). -/
def Instr.opcode : Instr → Opcode
  | .nop => .nop
  | .inv _ => .inv
  | .affLoad _ => .affLoad
  | .affScr => .affScr
  | .affUnscr => .affUnscr
  | .affClear => .affClear
  | .hexEnc _ => .hexEnc
  | .hexDec _ => .hexDec
  | .fpeLoad _ _ => .fpeLoad
  | .fpeScr => .fpeScr
  | .fpeUnscr => .fpeUnscr
  | .fpeClear => .fpeClear

/-- The `WIDTH` field of a command, 0 where the command has none (30_encoding.md R77). -/
def Instr.widthField : Instr → Nat
  | .inv n => n
  | .affLoad n => n
  | .hexEnc n => n
  | .hexDec n => n
  | .fpeLoad n _ => n
  | .nop => 0
  | .affScr => 0
  | .affUnscr => 0
  | .affClear => 0
  | .fpeScr => 0
  | .fpeUnscr => 0
  | .fpeClear => 0

/-- The `KLEN` field of a command, 0 where the command has none (30_encoding.md R77). -/
def Instr.klenField : Instr → Nat
  | .fpeLoad _ k => k
  | .nop => 0
  | .inv _ => 0
  | .affLoad _ => 0
  | .affScr => 0
  | .affUnscr => 0
  | .affClear => 0
  | .hexEnc _ => 0
  | .hexDec _ => 0
  | .fpeScr => 0
  | .fpeUnscr => 0
  | .fpeClear => 0

/-- The 64-bit value that issues a well-formed command (30_encoding.md R70, R76). -/
def encode (i : Instr) : Word := commandWord i.opcode.toNat i.widthField i.klenField

/-- The command the decoder reads from the low `nbits` bits `w`, every higher bit of the `CMD` write
being 0. -/
def decodeTableWord (nbits w : Nat) : Option Instr :=
  (decode (BitVec.ofNat 64 (w % 2 ^ nbits))).toOption

end Sys2Proof
end

