-- ==== Sys2Proof/Machine/Arith.lean ====
section
/-! DEFINITION. The arithmetic of the engines: mod_n, the inverse mod 2^n, bit reversal and the affine
map (00_scope.md, 40_modular_inverse.md, 41_affine_scrambler.md). Products are exact before each
reduction (00_scope.md R11). -/

namespace Sys2Proof.Machine

/-- `mod_n(x)`, for an unbounded integer `x` (00_scope.md R10). -/
def modN (n : Nat) (x : Int) : Nat := (x % ((2 ^ n : Nat) : Int)).toNat

/-- `mulmod_n(a, b)` (41_affine_scrambler.md R121). -/
def mulMod (n a b : Nat) : Nat := modN n ((a : Int) * (b : Int))

/-- One Newton–Hensel round, `x <- mod_n(x * mod_n(2 - s * x))` (40_modular_inverse.md R102). -/
def newtonStep (n s x : Nat) : Nat := mulMod n x (modN n (2 - (s : Int) * (x : Int)))

/-- `k` rounds from `x`. -/
def newtonIter (n s : Nat) : Nat → Nat → Nat
  | 0, x => x
  | k + 1, x => newtonIter n s k (newtonStep n s x)

/-- The round counts K(n) of 40_modular_inverse.md R102. No command reaches a width other than the
four named. -/
def newtonRounds : Nat → Nat
  | 8 => 2
  | 16 => 3
  | 32 => 4
  | _ => 5

/-- `inv_n(s)` (40_modular_inverse.md R100), computed by the reference algorithm of R102
(assumption 10). -/
def invN (n s : Nat) : Nat := newtonIter n s (newtonRounds n) s

/-- `brev_n(x)` (41_affine_scrambler.md R120): bit 0 of `x` becomes the top bit, and the bits above it
are reversed below. -/
def brev : Nat → Nat → Nat
  | 0, _ => 0
  | n + 1, x => x % 2 * 2 ^ n + brev n (x / 2)

/-- `aff_n(s, i, v)` (41_affine_scrambler.md R122). -/
def aff (n s i v : Nat) : Nat :=
  let t1 := mulMod n v s
  let t2 := brev n t1
  mulMod n t2 i

end Sys2Proof.Machine
end

