-- ==== Sys2Proof/Machine/Data.lean ====
section
/-! DEFINITION. The plain data types State is built of: phases, error codes, the latch, the two
contexts, the primitive's request and answer, the host agent's statements, and the moves of a
schedule. -/

namespace Sys2Proof.Machine

/-- The unit's phase (10_state.md R37). -/
inductive Phase where
  | idle
  | exec
  | waitPrim
  deriving DecidableEq, Repr, Inhabited

/-- The error codes 0 to 10 (60_exceptions.md R203). Codes 11 to 15 are never produced and have no
constructor. -/
inductive ErrCode where
  | none
  | invalidWidth
  | notOdd
  | nullOperand
  | invalidKeySize
  | encodingError
  | encryptionError
  | decryptionError
  | noContext
  | illegalCommand
  | operandRange
  deriving DecidableEq, Repr, Inhabited

/-- The fields of `STATUS` that are stored (10_state.md R24 to R28). The other fields mirror the
contexts (R29, R30) and are computed. -/
structure Status where
  busy : Bool
  done : Bool
  err : Bool
  ovr : Bool
  errCode : ErrCode
  deriving DecidableEq, Repr, Inhabited

/-- The latch `L`, taken at acceptance (10_state.md R36). -/
structure Latch where
  cmd : Word
  opa : Word
  opaWr : Bool
  key : Vector Word 4
  keyWr : Vector Bool 4
  hex : Vector Word 2
  hexWr : Vector Bool 2
  deriving DecidableEq, Repr, Inhabited

/-- The affine context `AFF_CTX` (10_state.md R38). -/
structure AffCtx where
  valid : Bool
  width : BitVec 8
  salt : Word
  inv : Word
  deriving DecidableEq, Repr, Inhabited

/-- The FPE context `FPE_CTX` (10_state.md R39). -/
structure FpeCtx where
  valid : Bool
  width : BitVec 8
  keylen : BitVec 8
  key : Vector Byte 32
  deriving DecidableEq, Repr, Inhabited

/-- The direction of a primitive request (10_state.md R41). -/
inductive Dir where
  | enc
  | dec
  deriving DecidableEq, Repr, Inhabited

/-- The primitive request `PREQ` (10_state.md R41): direction, key, key length, digit count, and the
digit vector of that many digits. -/
structure PrimReq where
  dir : Dir
  key : List Byte
  keylen : BitVec 8
  ld : Nat
  d : Vector Digit ld
  deriving DecidableEq, Repr

/-- The primitive's answer to a request of `ld` digits (43_fpe_scrambler.md R171). -/
inductive PrimResult (ld : Nat) where
  | ok (c : Vector Digit ld)
  | reject
  | fail
  deriving DecidableEq, Repr, Inhabited

/-- The constructor parameters of the primitive (43_fpe_scrambler.md R170). -/
structure PrimConfig where
  key : List Byte
  tweak : Option (List Byte)
  minLength : Nat
  maxLength : Nat
  radix : Nat
  deriving DecidableEq, Repr

/-- The registers of the window (20_memory.md R52). -/
inductive Reg where
  | cmd
  | status
  | opa
  | res
  | key (i : Fin 4)
  | hex (i : Fin 2)
  deriving DecidableEq, Repr, Inhabited

/-- Where a host access goes and how many bytes wide it is. `reg` is the form of the host assembly
(30_encoding.md R84) and is always 8 bytes; `off` names a window offset (`BusRead`, `BusWrite` of
00_scope.md R12); `addr` names a host address (`MemRead`, `MemWrite` there). -/
inductive Loc where
  | reg (r : Reg)
  | off (o bytes : Nat)
  | addr (a bytes : Nat)
  deriving DecidableEq, Repr, Inhabited

/-- The value a host write stores: an immediate or a host variable (30_encoding.md R84). -/
inductive Src where
  | imm (v : Word)
  | var (x : Nat)
  deriving DecidableEq, Repr, Inhabited

/-- A machine statement of the host assembly (30_encoding.md R84). Host variables and labels are
named by numbers. -/
inductive HostStmt where
  | wr (l : Loc) (src : Src)
  | rd (l : Loc) (x : Nat)
  | label (l : Nat)
  | bnz (x : Nat) (mask : Word) (l : Nat)
  deriving DecidableEq, Repr, Inhabited

/-- The host agent (10_state.md R20): its program, its place in it, and its variables, the last as
(variable, value) pairs, rising, no value 0 (assumption 9). -/
structure HostAgent where
  prog : List HostStmt
  pos : Nat
  vars : List (Nat × Word)
  deriving DecidableEq, Repr, Inhabited

/-- Who moves in a step (10_state.md R20): the host, the unit, the primitive; a late answer to a
request that a reset discarded (70_reset_and_hazards.md R231); or the platform's reset (R230). -/
inductive Move where
  | host
  | unit
  | prim
  | lateAnswer (ld : Nat) (a : PrimResult ld)
  | reset
  deriving DecidableEq, Repr

end Sys2Proof.Machine
end

