-- ==== Sys2Proof/Config.lean ====
section
/-! DEFINITION. What the spec leaves OPEN (00_scope.md R8) and the free values: constants with no
body, so that a claim holds whatever they are. -/

namespace Sys2Proof

/-- The FPE primitive, a pair of total functions (43_fpe_scrambler.md R171). Tweak absent and radix
16 are fixed and so are no arguments. -/
structure FpePrim where
  enc : List Byte → (ld : Nat) → Vector Digit ld → Machine.PrimResult ld
  dec : List Byte → (ld : Nat) → Vector Digit ld → Machine.PrimResult ld
  deriving Inhabited

/-- `FPE_PRIM`, OPEN (43_fpe_scrambler.md R171; assumption 6). -/
opaque Config.fpePrim : FpePrim

/-- `UNIT_BASE`, OPEN (20_memory.md R51; assumption 7). -/
opaque Config.unitBase : Nat

/-- The content of the latch while the phase is `IDLE`, which is unspecified (10_state.md R36): a
free value, a fresh one at each use (assumption 5). -/
opaque Config.freeLatch : Nat → Machine.Latch

end Sys2Proof
end

