-- ==== Sys2Proof/Machine/State.lean ====
section
/-! DEFINITION. The machine's state, its reset value (10_state.md R44), and the reasons a step can
stop. -/

namespace Sys2Proof.Machine

/-- Why the machine stops with a fault. No command raises one; only a host access does. -/
inductive Fault where
  /-- Raised by a host access (`access`) to an address outside the register window, which the unit
  does not decode (20_memory.md R51). Safe: the machine stops where the platform may go on
  (assumption 7). -/
  | outsideWindow
  deriving DecidableEq, Repr, Inhabited

/-- Why the machine refuses a step. No command is refused; only the host's statements are. -/
inductive Refusal where
  /-- Raised by an arm of `exec` that has no meaning yet. There is none. Safe. -/
  | notModelled (mnemonic : String)
  /-- Raised by a host access (`access`) that is not an aligned 64-bit one; the platform behaviour
  `BUS_NARROW` is OPEN and a model refuses it (20_memory.md R53). Safe (assumption 8). -/
  | narrowAccess
  /-- Raised by the host's `bnz` to a label its program does not hold, which 30_encoding.md R84 gives
  no meaning. Safe (assumption 9). -/
  | noSuchLabel
  deriving DecidableEq, Repr, Inhabited

/-- The state of the unit (10_state.md R44 lists it), of the host agent, and the model's own schedule
and free-value counter. -/
structure State where
  /-- `CMD` (R23). -/
  cmd : Word
  /-- The stored fields of `STATUS` (R24 to R28). -/
  status : Status
  /-- `OPA` and `OPA_WR` (R31, R32). -/
  opa : Word
  opaWr : Bool
  /-- `RES` (R33). -/
  res : Word
  /-- `KEY0`..`KEY3` and `KEY_WR[0..3]` (R31, R34). -/
  key : Vector Word 4
  keyWr : Vector Bool 4
  /-- `HEX0`, `HEX1` and `HEX_WR[0..1]` (R31, R35). -/
  hex : Vector Word 2
  hexWr : Vector Bool 2
  /-- The phase (R37). -/
  phase : Phase
  /-- The latch `L` (R36). -/
  latch : Latch
  /-- `AFF_CTX` (R38). -/
  affCtx : AffCtx
  /-- `FPE_CTX` (R39). -/
  fpeCtx : FpeCtx
  /-- `PREQ`, absent or present (R41). -/
  preq : Option PrimReq
  /-- The host agent (R20). -/
  host : HostAgent
  /-- The model's own: who moves next, the next mover first (assumption 1). -/
  sched : List Move
  /-- The model's own: how many free values have been drawn (assumption 5). -/
  freeCount : Nat
  deriving DecidableEq, Repr

/-- An affine context with `valid = 0` and every other field 0 (R44). -/
def AffCtx.cleared : AffCtx := ⟨false, 0, 0, 0⟩

/-- An FPE context with `valid = 0` and every other field 0 (R44). -/
def FpeCtx.cleared : FpeCtx := ⟨false, 0, 0, Vector.replicate 32 0⟩

/-- The model's choice for the content of the latch right after power-on, which the spec leaves
unspecified (R36, R44; assumption 5). -/
def Latch.zero : Latch :=
  ⟨0, 0, false, Vector.replicate 4 0, Vector.replicate 4 false, Vector.replicate 2 0,
    Vector.replicate 2 false⟩

/-- The machine right after reset (10_state.md R44, 70_reset_and_hazards.md R230). The host has no
program and the schedule is empty (assumptions 3 and 9). -/
def State.reset : State where
  cmd := 0
  status := ⟨false, false, false, false, .none⟩
  opa := 0
  opaWr := false
  res := 0
  key := Vector.replicate 4 0
  keyWr := Vector.replicate 4 false
  hex := Vector.replicate 2 0
  hexWr := Vector.replicate 2 false
  phase := .idle
  latch := Latch.zero
  affCtx := AffCtx.cleared
  fpeCtx := FpeCtx.cleared
  preq := none
  host := ⟨[], 0, []⟩
  sched := []
  freeCount := 0

end Sys2Proof.Machine
end

