-- ==== Sys2Proof/Machine/Flags.lean ====
section
/-! DEFINITION. The `STATUS` register: how acceptance, completion and an ignored `CMD` write change its
stored fields, and the 64-bit value the host reads (10_state.md R24 to R30, R42). -/

namespace Sys2Proof.Machine

/-- The number of an error code (60_exceptions.md R203). -/
def ErrCode.number : ErrCode → Nat
  | .none => 0
  | .invalidWidth => 1
  | .notOdd => 2
  | .nullOperand => 3
  | .invalidKeySize => 4
  | .encodingError => 5
  | .encryptionError => 6
  | .decryptionError => 7
  | .noContext => 8
  | .illegalCommand => 9
  | .operandRange => 10

/-- `STATUS` after an acceptance (60_exceptions.md R200). -/
def Status.accepted (_ : Status) : Status where
  busy := true
  done := false
  err := false
  ovr := false
  errCode := .none

/-- `STATUS` after a completion with `code` (60_exceptions.md R204): `OVR` keeps its value. -/
def Status.completed (code : ErrCode) (st : Status) : Status where
  busy := false
  done := true
  err := decide (code ≠ .none)
  ovr := st.ovr
  errCode := code

/-- `STATUS` after an ignored `CMD` write (70_reset_and_hazards.md R240). -/
def Status.overrun (st : Status) : Status := { st with ovr := true }

/-- `AFF_W` (10_state.md R29). -/
def AffCtx.shownWidth (c : AffCtx) : BitVec 8 := if c.valid then c.width else 0

/-- `FPE_W` (10_state.md R30). -/
def FpeCtx.shownWidth (c : FpeCtx) : BitVec 8 := if c.valid then c.width else 0

/-- `FPE_KLEN`, a 6-bit field (10_state.md R24, R30). -/
def FpeCtx.shownKeylen (c : FpeCtx) : BitVec 6 := if c.valid then c.keylen.setWidth 6 else 0

/-- The value of `STATUS`, the fields of 10_state.md R24 from bit 63 down to bit 0. -/
def statusWord (s : State) : Word :=
  0#26 ++ s.fpeCtx.shownKeylen ++ s.fpeCtx.shownWidth ++ s.affCtx.shownWidth ++ 0#4
    ++ BitVec.ofNat 4 s.status.errCode.number ++ 0#2
    ++ BitVec.ofBool s.fpeCtx.valid ++ BitVec.ofBool s.affCtx.valid
    ++ BitVec.ofBool s.status.ovr ++ BitVec.ofBool s.status.err
    ++ BitVec.ofBool s.status.done ++ BitVec.ofBool s.status.busy

end Sys2Proof.Machine
end

