-- ==== Sys2Proof/Machine/Operands.lean ====
section
/-! DEFINITION. Operand forms: the checks on operands (00_scope.md R13), byte strings in registers
(20_memory.md R55, 43_fpe_scrambler.md R181), digits and characters (42_fpe_integer_encoder.md). -/

namespace Sys2Proof.Machine

/-- `validAffWidth(n)` (00_scope.md R13). -/
def validAffWidth (n : Nat) : Bool := decide (n ∈ [8, 16, 32, 64])

/-- `validFpeWidth(n)` (00_scope.md R13). -/
def validFpeWidth (n : Nat) : Bool := decide (n ∈ [32, 64])

/-- `validKeySize(k)` (00_scope.md R13). -/
def validKeySize (k : Nat) : Bool := decide (k ∈ [16, 24, 32])

/-- `odd(s)` (00_scope.md R13). -/
def odd (s : Word) : Bool := decide (bits s 0 0 = 1)

/-- `inRange(v, n)` (00_scope.md R13). -/
def inRange (v : Word) (n : Nat) : Bool := decide (v.toNat < 2 ^ n)

/-- `zext_64` of a result (00_scope.md R10, 10_state.md R33). -/
def zext64 (v : Nat) : Word := BitVec.ofNat 64 v

/-- Byte `k` of the string held in `regs`, little-endian within each register (20_memory.md R55). -/
def stringByte {m : Nat} (regs : Vector Word m) (k : Nat) : Byte :=
  BitVec.ofNat 8 (bits (regs[k / 8]?.getD 0) (8 * (k % 8) + 7) (8 * (k % 8)))

/-- The first `k` bytes of the string held in `regs`; of the KEY registers, `keybytes` (43 R181). -/
def stringBytes {m : Nat} (regs : Vector Word m) (k : Nat) : List Byte :=
  (List.range k).map (stringByte regs)

/-- A key with zero bytes up to 32 (43_fpe_scrambler.md R180). -/
def padKey (key : List Byte) : Vector Byte 32 :=
  ⟨((key ++ List.replicate 32 0).take 32).toArray, by simp⟩

/-- The number whose bytes are `bs`, byte 0 least significant. -/
def bytesValue : List Byte → Nat
  | [] => 0
  | b :: bs => b.toNat + 256 * bytesValue bs

/-- A register holding up to eight bytes, byte `k` at bits `8k+7:8k` (20_memory.md R55). -/
def packBytes (bs : List Byte) : Word := BitVec.ofNat 64 (bytesValue bs)

/-- `DIGITS(n)`, the digit count of width `n` (00_scope.md R7). -/
def digitCount (n : Nat) : Nat := n / 4

/-- Digit `j` of `hexd_n(v)`, where `ld` is the digit count (42_fpe_integer_encoder.md R150). -/
def hexDigit (ld : Nat) (v : Word) (j : Nat) : Digit :=
  BitVec.ofNat 4 (bits v (4 * (ld - 1 - j) + 3) (4 * (ld - 1 - j)))

/-- `hexd_n(v)`, the digit vector of `ld` digits, most significant first (42 R150, 20 R57). -/
def hexd (ld : Nat) (v : Word) : Vector Digit ld :=
  ⟨((List.range ld).map (hexDigit ld v)).toArray, by simp⟩

/-- The sum of `D[j] * 16^(Ld-1-j)` (42_fpe_integer_encoder.md R150). -/
def digitsValue : List Digit → Nat
  | [] => 0
  | d :: ds => d.toNat * 16 ^ ds.length + digitsValue ds

/-- `unhexd(D)` (42_fpe_integer_encoder.md R150). -/
def unhexd {ld : Nat} (d : Vector Digit ld) : Nat := digitsValue d.toList

/-- `chr(d)`, a lowercase hexadecimal character (42_fpe_integer_encoder.md R151). -/
def chr (d : Digit) : Byte :=
  if d.toNat ≤ 9 then BitVec.ofNat 8 (0x30 + d.toNat)
  else BitVec.ofNat 8 (0x61 + (d.toNat - 10))

/-- `ord(b)`, `none` where it is invalid (42_fpe_integer_encoder.md R152). -/
def ord (b : Byte) : Option Digit :=
  if 0x30 ≤ b.toNat ∧ b.toNat ≤ 0x39 then some (BitVec.ofNat 4 (b.toNat - 0x30))
  else if 0x61 ≤ b.toNat ∧ b.toNat ≤ 0x66 then some (BitVec.ofNat 4 (b.toNat - 0x61 + 10))
  else none

/-- The digits of a character string, `none` if some character is no digit (42 R154). -/
def parseDigits : List Byte → Option (List Digit)
  | [] => some []
  | b :: bs =>
    match ord b, parseDigits bs with
    | some d, some ds => some (d :: ds)
    | _, _ => none

/-- The sixteen bytes `B[0..15]` of `HEX_ENC`: `ld` characters, then zero bytes (42 R153). -/
def hexChars (ld : Nat) (v : Word) : List Byte :=
  (List.range 16).map fun k => if k < ld then chr (hexDigit ld v k) else 0

/-- `HEX0` and `HEX1` as `HEX_ENC` writes them (42 R153). -/
def hexRegs (ld : Nat) (v : Word) : Vector Word 2 :=
  #v[packBytes ((hexChars ld v).take 8), packBytes ((hexChars ld v).drop 8)]

/-- The configuration of the primitive that an FPE context implies (43_fpe_scrambler.md R170, 10_state.md
R39): the context's key bytes, no tweak, one digit length, radix 16. -/
def FpeCtx.primConfig (c : FpeCtx) : PrimConfig where
  key := c.key.toList.take c.keylen.toNat
  tweak := none
  minLength := digitCount c.width.toNat
  maxLength := digitCount c.width.toNat
  radix := 16

end Sys2Proof.Machine
end

