-- ==== Sys2Proof/Machine/Ops.lean ====
section
/-! DEFINITION. The named operations on the state: acceptance, completion (with or without an error,
which is all this unit has for an exception: 60_exceptions.md R217), the primitive port, reset, the
register window, and the host's variables. -/

namespace Sys2Proof.Machine

/-- The outcome of a step. -/
abbrev Out := Host.Outcome State Fault Refusal

/-- The latch taken by the write of `c` to `CMD`: the registers as they stand just before it
(10_state.md R36). -/
def latchOf (c : Word) (s : State) : Latch where
  cmd := c
  opa := s.opa
  opaWr := s.opaWr
  key := s.key
  keyWr := s.keyWr
  hex := s.hex
  hexWr := s.hexWr

/-- Acceptance of the value `c` (60_exceptions.md R200). -/
def accept (c : Word) (s : State) : State :=
  { s with
    cmd := c
    latch := latchOf c s
    status := s.status.accepted
    phase := .exec }

/-- Completion with `code` (60_exceptions.md R204). The latch is read no more; its content while
`IDLE` is unspecified (10_state.md R36), so a free value stands there (assumption 5). -/
def complete (code : ErrCode) (s : State) : State :=
  { s with
    status := s.status.completed code
    phase := .idle
    latch := Config.freeLatch s.freeCount
    freeCount := s.freeCount + 1 }

/-- `complete()` (00_scope.md R12). -/
def succeed (s : State) : Out := .next (complete .none s)

/-- `raise Error(code)`: the one operation that takes an error. It is a completion, not a trap
(60_exceptions.md R204, R217). -/
def raise (code : ErrCode) (s : State) : Out := .next (complete code s)

/-- The request `PrimCall(dir, key, Ld, D)` makes for the value `v` under the context `c`
(43_fpe_scrambler.md R170, R172, R182, R185). -/
def primRequest (dir : Dir) (c : FpeCtx) (v : Word) : PrimReq where
  dir := dir
  key := c.primConfig.key
  keylen := c.keylen
  ld := c.primConfig.maxLength
  d := hexd c.primConfig.maxLength v

/-- `PrimCall` puts the request on the port and the unit waits (43_fpe_scrambler.md R172). -/
def startPrim (r : PrimReq) (s : State) : State :=
  { s with preq := some r, phase := .waitPrim }

/-- What the primitive answers to a request (43_fpe_scrambler.md R172). -/
def primResult (p : FpePrim) (r : PrimReq) : PrimResult r.ld :=
  match r.dir with
  | .enc => p.enc r.key r.ld r.d
  | .dec => p.dec r.key r.ld r.d

/-- The error code of an answer other than `OK` (43_fpe_scrambler.md R174). -/
def failCode : Dir → ErrCode
  | .enc => .encryptionError
  | .dec => .decryptionError

/-- The answer `a` consumes the request `r`, and the suspended command goes on at its `case A of` and
completes (60_exceptions.md R205, 43_fpe_scrambler.md R174). -/
def takeAnswer (r : PrimReq) (a : PrimResult r.ld) (s : State) : Out :=
  match a with
  | .ok c => succeed { s with preq := none, res := zext64 (unhexd c) }
  | .reject => raise .encodingError { s with preq := none }
  | .fail => raise (failCode r.dir) { s with preq := none }

/-- Reset (70_reset_and_hazards.md R230, R231): every piece of the unit's state takes its reset value;
the latch, whose value R44 leaves unspecified, takes a free one. The host agent and the schedule are
no state of the unit (assumption 20). -/
def resetUnit (s : State) : State :=
  { State.reset with
    latch := Config.freeLatch s.freeCount
    freeCount := s.freeCount + 1
    host := s.host
    sched := s.sched }

/-- The window offset of a register (20_memory.md R52). -/
def Reg.offset : Reg → Nat
  | .cmd => 0x00
  | .status => 0x08
  | .opa => 0x10
  | .res => 0x18
  | .key i => 0x20 + 8 * i.val
  | .hex i => 0x40 + 8 * i.val

/-- The register at an offset; `none` is unmapped (20_memory.md R52). -/
def Reg.at? : Nat → Option Reg
  | 0x00 => some .cmd
  | 0x08 => some .status
  | 0x10 => some .opa
  | 0x18 => some .res
  | 0x20 => some (.key 0)
  | 0x28 => some (.key 1)
  | 0x30 => some (.key 2)
  | 0x38 => some (.key 3)
  | 0x40 => some (.hex 0)
  | 0x48 => some (.hex 1)
  | _ => none

/-- What the host reads from a register; `KEY0`..`KEY3` read 0 (20_memory.md R52, 10_state.md R34). -/
def readReg (r : Reg) (s : State) : Word :=
  match r with
  | .cmd => s.cmd
  | .status => statusWord s
  | .opa => s.opa
  | .res => s.res
  | .key _ => 0
  | .hex i => s.hex[i]

/-- A host write to `CMD`: an acceptance in `IDLE`, else ignored but for `OVR` (60_exceptions.md R200,
70_reset_and_hazards.md R240). -/
def writeCmd (v : Word) (s : State) : State :=
  if s.phase = .idle then accept v s else { s with status := s.status.overrun }

/-- A host write to a register; `STATUS` and `RES` ignore it (20_memory.md R54, 10_state.md R31 to
R35). -/
def writeReg (r : Reg) (v : Word) (s : State) : State :=
  match r with
  | .cmd => writeCmd v s
  | .status => s
  | .opa => { s with opa := v, opaWr := true }
  | .res => s
  | .key i => { s with key := s.key.set i v, keyWr := s.keyWr.set i true }
  | .hex i => { s with hex := s.hex.set i v, hexWr := s.hexWr.set i true }

/-- `BusRead(off)` (00_scope.md R12); an unmapped offset reads 0 (20_memory.md R54). -/
def busRead (off : Nat) (s : State) : Word :=
  match Reg.at? off with
  | some r => readReg r s
  | none => 0

/-- `BusWrite(off, v)` (00_scope.md R12); an unmapped offset ignores it (20_memory.md R54). -/
def busWrite (off : Nat) (v : Word) (s : State) : State :=
  match Reg.at? off with
  | some r => writeReg r v s
  | none => s

/-- `UNIT_SIZE` (00_scope.md R8). -/
def unitSize : Nat := 0x80

/-- The window offset and the width in bytes of an access, with the window at `base`; `none` below the
window (20_memory.md R51, 00_scope.md R12). -/
def Loc.place (base : Nat) : Loc → Option (Nat × Nat)
  | .reg r => some (r.offset, 8)
  | .off o bytes => some (o, bytes)
  | .addr a bytes => if a < base then none else some (a - base, bytes)

/-- A host access that does `f` at its window offset. Only an aligned 64-bit access in the window is
defined (20_memory.md R51, R53; assumptions 7 and 8). -/
def access (l : Loc) (f : Nat → Out) : Out :=
  match l.place Config.unitBase with
  | none => .fault .outsideWindow
  | some (off, bytes) =>
    if unitSize ≤ off then .fault .outsideWindow
    else if bytes = 8 ∧ off % 8 = 0 then f off
    else .refused .narrowAccess

/-- The value of a host variable; an unlisted one is 0 (assumption 9). -/
def varGet (x : Nat) : List (Nat × Word) → Word
  | [] => 0
  | (y, v) :: rest => if x = y then v else varGet x rest

/-- The variables with `x` set to `v`, kept rising and without the value 0. -/
def varSet (x : Nat) (v : Word) : List (Nat × Word) → List (Nat × Word)
  | [] => if v = 0 then [] else [(x, v)]
  | (y, w) :: rest =>
    if x < y then (if v = 0 then (y, w) :: rest else (x, v) :: (y, w) :: rest)
    else if x = y then (if v = 0 then rest else (x, v) :: rest)
    else (y, w) :: varSet x v rest

/-- The value a host write stores (30_encoding.md R84). -/
def Src.value (h : HostAgent) : Src → Word
  | .imm v => v
  | .var x => varGet x h.vars

/-- The host goes on to its next statement. -/
def HostAgent.advance (h : HostAgent) : HostAgent := { h with pos := h.pos + 1 }

/-- The host sets a variable and goes on. -/
def HostAgent.setVar (x : Nat) (v : Word) (h : HostAgent) : HostAgent :=
  { h with pos := h.pos + 1, vars := varSet x v h.vars }

/-- The position of the statement `<l>:`, counting from position `p`. -/
def labelPos (l : Nat) : Nat → List HostStmt → Option Nat
  | _, [] => none
  | p, .label k :: rest => if k = l then some p else labelPos l (p + 1) rest
  | p, .wr _ _ :: rest => labelPos l (p + 1) rest
  | p, .rd _ _ :: rest => labelPos l (p + 1) rest
  | p, .bnz _ _ _ :: rest => labelPos l (p + 1) rest

/-- The host goes to the label `l` of its program. -/
def jump (l : Nat) (s : State) : Out :=
  match labelPos l 0 s.host.prog with
  | some p => .next { s with host := { s.host with pos := p } }
  | none => .refused .noSuchLabel

end Sys2Proof.Machine
end

