-- ==== Sys2Proof/Machine/Affine.lean ====
section
/-! DEFINITION. `AFF_LOAD`, `AFF_SCR`, `AFF_UNSCR`, `AFF_CLEAR` (41_affine_scrambler.md). -/

namespace Sys2Proof.Machine

/-- The affine context constructed from a salt of width `n` (41_affine_scrambler.md R125). -/
def AffCtx.ofSalt (n : Nat) (salt : Word) : AffCtx where
  valid := true
  width := BitVec.ofNat 8 n
  salt := salt
  inv := zext64 (invN n salt.toNat)

/-- `AFF_LOAD` of width `n` (41_affine_scrambler.md R125); salt 1 is refused. -/
def execAffLoad (n : Nat) (s : State) : Out :=
  if validAffWidth n = false then raise .invalidWidth s
  else if s.latch.opaWr = false then raise .nullOperand s
  else if inRange s.latch.opa n = false then raise .operandRange s
  else if odd s.latch.opa = false ∨ s.latch.opa = 1 then raise .notOdd s
  else succeed { s with affCtx := AffCtx.ofSalt n s.latch.opa }

/-- The affine map of a context on a value (41_affine_scrambler.md R122). -/
def AffCtx.map (c : AffCtx) (v : Word) : Word :=
  zext64 (aff c.width.toNat c.salt.toNat c.inv.toNat v.toNat)

/-- The computation that `AFF_SCR` and `AFF_UNSCR` share (41_affine_scrambler.md R127, R128). -/
def affScramble (s : State) : Out :=
  if s.affCtx.valid = false then raise .noContext s
  else if s.latch.opaWr = false then raise .nullOperand s
  else if inRange s.latch.opa s.affCtx.width.toNat = false then raise .operandRange s
  else succeed { s with res := s.affCtx.map s.latch.opa }

/-- `AFF_SCR` (41_affine_scrambler.md R127). -/
def execAffScr (s : State) : Out := affScramble s

/-- `AFF_UNSCR` (41_affine_scrambler.md R128). -/
def execAffUnscr (s : State) : Out := affScramble s

/-- `AFF_CLEAR` (41_affine_scrambler.md R129). -/
def execAffClear (s : State) : Out := succeed { s with affCtx := AffCtx.cleared }

end Sys2Proof.Machine
end

