-- ==== Sys2Proof/Machine/Fpe.lean ====
section
/-! DEFINITION. `FPE_LOAD`, `FPE_SCR`, `FPE_UNSCR`, `FPE_CLEAR` (43_fpe_scrambler.md). The answer of
the primitive is taken in Machine/Ops.lean (`takeAnswer`). -/

namespace Sys2Proof.Machine

/-- The KEY registers that a key of `k` bytes needs have all been written (43_fpe_scrambler.md R180). -/
def keyWritten (k : Nat) (l : Latch) : Bool := (l.keyWr.toList.take (k / 8)).all id

/-- The FPE context constructed from the KEY registers (43_fpe_scrambler.md R180, R181). -/
def FpeCtx.ofKey (n k : Nat) (keyRegs : Vector Word 4) : FpeCtx where
  valid := true
  width := BitVec.ofNat 8 n
  keylen := BitVec.ofNat 8 k
  key := padKey (stringBytes keyRegs k)

/-- `FPE_LOAD` of width `n` with a key of `k` bytes (43_fpe_scrambler.md R180). -/
def execFpeLoad (n k : Nat) (s : State) : Out :=
  if validFpeWidth n = false then raise .invalidWidth s
  else if validKeySize k = false then raise .invalidKeySize s
  else if keyWritten k s.latch = false then raise .nullOperand s
  else succeed { s with fpeCtx := FpeCtx.ofKey n k s.latch.key }

/-- The checks and the primitive call that `FPE_SCR` and `FPE_UNSCR` share (43_fpe_scrambler.md R182,
R185). -/
def fpeCall (dir : Dir) (s : State) : Out :=
  if s.fpeCtx.valid = false then raise .noContext s
  else if s.latch.opaWr = false then raise .nullOperand s
  else if inRange s.latch.opa s.fpeCtx.width.toNat = false then raise .operandRange s
  else .next (startPrim (primRequest dir s.fpeCtx s.latch.opa) s)

/-- `FPE_SCR` up to its primitive call (43_fpe_scrambler.md R182). -/
def execFpeScr (s : State) : Out := fpeCall .enc s

/-- `FPE_UNSCR` up to its primitive call (43_fpe_scrambler.md R185). -/
def execFpeUnscr (s : State) : Out := fpeCall .dec s

/-- `FPE_CLEAR` (43_fpe_scrambler.md R186). -/
def execFpeClear (s : State) : Out :=
  succeed { s with
    fpeCtx := FpeCtx.cleared
    key := Vector.replicate 4 0
    keyWr := Vector.replicate 4 false }

end Sys2Proof.Machine
end

