-- ==== Sys2Proof/Machine/Hex.lean ====
section
/-! DEFINITION. `HEX_ENC`, `HEX_DEC` (42_fpe_integer_encoder.md). -/

namespace Sys2Proof.Machine

/-- `HEX_ENC` of width `n` (42_fpe_integer_encoder.md R153). -/
def execHexEnc (n : Nat) (s : State) : Out :=
  if validFpeWidth n = false then raise .invalidWidth s
  else if s.latch.opaWr = false then raise .nullOperand s
  else if inRange s.latch.opa n = false then raise .operandRange s
  else succeed { s with hex := hexRegs (digitCount n) s.latch.opa, hexWr := #v[true, true] }

/-- `HEX_DEC` of width `n` (42_fpe_integer_encoder.md R154). -/
def execHexDec (n : Nat) (s : State) : Out :=
  if validFpeWidth n = false then raise .invalidWidth s
  else if s.latch.hexWr[0] = false then raise .nullOperand s
  else if n = 64 ∧ s.latch.hexWr[1] = false then raise .nullOperand s
  else match parseDigits (stringBytes s.latch.hex (digitCount n)) with
    | none => raise .encodingError s
    | some ds => succeed { s with res := zext64 (digitsValue ds) }

end Sys2Proof.Machine
end

