-- ==== Sys2Proof/Machine/Inverse.lean ====
section
/-! DEFINITION. `INV` (40_modular_inverse.md). -/

namespace Sys2Proof.Machine

/-- `INV` of width `n` (40_modular_inverse.md R103); salt 1 is accepted (R104). -/
def execInv (n : Nat) (s : State) : Out :=
  if validAffWidth n = false then raise .invalidWidth s
  else if s.latch.opaWr = false then raise .nullOperand s
  else if inRange s.latch.opa n = false then raise .operandRange s
  else if odd s.latch.opa = false then raise .notOdd s
  else succeed { s with res := zext64 (invN n s.latch.opa.toNat) }

end Sys2Proof.Machine
end

