-- ==== Sys2Proof/Machine/Nop.lean ====
section
/-! DEFINITION. `NOP` (44_nop.md). -/

namespace Sys2Proof.Machine

/-- `NOP` (44_nop.md R195). -/
def execNop (s : State) : Out := succeed s

end Sys2Proof.Machine
end

