-- ==== Sys2Proof/Machine/Dispatch.lean ====
section
/-! DEFINITION. The dispatch of 60_exceptions.md R201: one arm per command. -/

namespace Sys2Proof.Machine

def exec (i : Instr) (s : State) : Host.Outcome State Fault Refusal :=
  match i with
  | .nop => Sys2Proof.Machine.execNop s
  | .inv n => Sys2Proof.Machine.execInv n s
  | .affLoad n => Sys2Proof.Machine.execAffLoad n s
  | .affScr => Sys2Proof.Machine.execAffScr s
  | .affUnscr => Sys2Proof.Machine.execAffUnscr s
  | .affClear => Sys2Proof.Machine.execAffClear s
  | .hexEnc n => Sys2Proof.Machine.execHexEnc n s
  | .hexDec n => Sys2Proof.Machine.execHexDec n s
  | .fpeLoad n k => Sys2Proof.Machine.execFpeLoad n k s
  | .fpeScr => Sys2Proof.Machine.execFpeScr s
  | .fpeUnscr => Sys2Proof.Machine.execFpeUnscr s
  | .fpeClear => Sys2Proof.Machine.execFpeClear s

end Sys2Proof.Machine
end

