-- ==== Sys2Proof/Machine/Agents.lean ====
section
/-! DEFINITION. What each agent does when it moves (10_state.md R20): the unit, the primitive, the
host, and the platform's reset; and the host assembly's pseudo-instructions (30_encoding.md R85). -/

namespace Sys2Proof.Machine

/-- The unit's move: in `EXEC` it executes the latched command, illegal or not (60_exceptions.md R201);
in `IDLE` and `WAIT_PRIM` it has none (10_state.md R37, 60_exceptions.md R205; assumption 4). -/
def unitStep (s : State) : Out :=
  match s.phase with
  | .exec =>
    match decode s.latch.cmd with
    | .ok i => exec i s
    | .error _ => raise .illegalCommand s
  | .idle => .next s
  | .waitPrim => .next s

/-- The primitive's move: it answers the outstanding request (60_exceptions.md R205). With none
outstanding it has no move (assumption 4). -/
def primStep (p : FpePrim) (s : State) : Out :=
  match s.phase, s.preq with
  | .waitPrim, some r => takeAnswer r (primResult p r) s
  | .waitPrim, none => .next s
  | .idle, _ => .next s
  | .exec, _ => .next s

/-- One statement of the host (30_encoding.md R84). A label is passed over in a move of its own. -/
def hostStmt (t : HostStmt) (s : State) : Out :=
  match t with
  | .wr l src =>
    access l fun off =>
      .next { busWrite off (src.value s.host) s with host := s.host.advance }
  | .rd l x =>
    access l fun off => .next { s with host := s.host.setVar x (busRead off s) }
  | .label _ => .next { s with host := s.host.advance }
  | .bnz x mask l =>
    if varGet x s.host.vars &&& mask = 0 then .next { s with host := s.host.advance }
    else jump l s

/-- The host's move: the next statement of its program; a host at its program's end has none
(assumption 4). -/
def hostStep (s : State) : Out :=
  match s.host.prog[s.host.pos]? with
  | some t => hostStmt t s
  | none => .next s

/-- The step of whoever moves. A late answer to a discarded request is ignored (70_reset_and_hazards.md
R231; assumption 15). -/
def move (p : FpePrim) (m : Move) (s : State) : Out :=
  match m with
  | .host => hostStep s
  | .unit => unitStep s
  | .prim => primStep p s
  | .lateAnswer _ _ => .next s
  | .reset => .next (resetUnit s)

/-- One step with the primitive `p`: the first mover of the schedule moves. Where the schedule lists
no one it is the unit's turn (assumptions 1 and 2). -/
def stepWith (p : FpePrim) (s : State) : Out :=
  match s.sched with
  | [] => unitStep s
  | m :: rest => move p m { s with sched := rest }

/-- A statement of a host program as it is written: a machine statement or a pseudo-instruction
(30_encoding.md R84, R85). `op` is the mnemonic's opcode, `w` and `k` the values of `w=` and `k=`. -/
inductive HostSource where
  | stmt (t : HostStmt)
  | cmd (op : Opcode) (w k : Nat)
  | poll
  | run (op : Opcode) (w k : Nat)
  | wrkey (bytes : List Byte)
  deriving DecidableEq, Repr

/-- `enc = OP | (n << 4) | (bytes << 12)` (30_encoding.md R85). -/
def sourceWord (op : Opcode) (w k : Nat) : Word :=
  BitVec.ofNat 64 op.toNat ||| (BitVec.ofNat 64 w <<< 4) ||| (BitVec.ofNat 64 k <<< 12)

/-- `wr CMD, enc` (30_encoding.md R85). -/
def cmdStmt (op : Opcode) (w k : Nat) : HostStmt := .wr (.reg .cmd) (.imm (sourceWord op w k))

/-- The expansion of `poll`, with the label and the variable it uses (30_encoding.md R85). -/
def pollStmts (l t : Nat) : List HostStmt :=
  [.label l, .rd (.reg .status) t, .bnz t 1 l]

/-- `wr KEYi` of eight key bytes, the last register padded with zero bytes (30_encoding.md R85). -/
def keyStmt (bytes : List Byte) (i : Fin 4) : HostStmt :=
  .wr (.reg (.key i)) (.imm (packBytes ((bytes.drop (8 * i.val)).take 8)))

/-- The expansion of a statement, with the label and the variable a `poll` in it uses
(30_encoding.md R85). -/
def HostSource.expand (l t : Nat) : HostSource → List HostStmt
  | .stmt st => [st]
  | .cmd op w k => [cmdStmt op w k]
  | .poll => pollStmts l t
  | .run op w k => cmdStmt op w k :: pollStmts l t
  | .wrkey bytes =>
    ([0, 1, 2, 3] : List (Fin 4)).filterMap fun i =>
      if 8 * i.val < bytes.length then some (keyStmt bytes i) else none

/-- The variables a stored value names. -/
def Src.vars : Src → List Nat
  | .imm _ => []
  | .var x => [x]

/-- The labels a machine statement names. -/
def HostStmt.labels : HostStmt → List Nat
  | .wr _ _ => []
  | .rd _ _ => []
  | .label l => [l]
  | .bnz _ _ l => [l]

/-- The variables a machine statement names. -/
def HostStmt.vars : HostStmt → List Nat
  | .wr _ src => src.vars
  | .rd _ x => [x]
  | .label _ => []
  | .bnz x _ _ => [x]

/-- The labels a statement as it is written names. -/
def HostSource.labels : HostSource → List Nat
  | .stmt st => st.labels
  | .cmd _ _ _ => []
  | .poll => []
  | .run _ _ _ => []
  | .wrkey _ => []

/-- The variables a statement as it is written names. -/
def HostSource.vars : HostSource → List Nat
  | .stmt st => st.vars
  | .cmd _ _ _ => []
  | .poll => []
  | .run _ _ _ => []
  | .wrkey _ => []

/-- The least number above every number of the list. -/
def above : List Nat → Nat
  | [] => 0
  | x :: xs => max (x + 1) (above xs)

/-- The first of the labels that a program names nowhere and none above is named either. -/
def freshLabel (prog : List HostSource) : Nat := above (prog.flatMap HostSource.labels)

/-- The first of the variables that a program names nowhere and none above is named either. -/
def freshVar (prog : List HostSource) : Nat := above (prog.flatMap HostSource.vars)

/-- The expansion of a program whose `i`-th statement's `poll` uses the `i`-th label and the `i`-th
variable from `l` and `t` on. -/
def expandFrom (l t : Nat) : List HostSource → List HostStmt
  | [] => []
  | src :: rest => src.expand l t ++ expandFrom (l + 1) (t + 1) rest

/-- The expansion of a program: every `poll` has a label and a variable of its own that the program
names nowhere (30_encoding.md R85; which ones is the model's choice, assumption 9). -/
def expandProgram (prog : List HostSource) : List HostStmt :=
  expandFrom (freshLabel prog) (freshVar prog) prog

end Sys2Proof.Machine
end

