-- ==== Sys2Proof/Machine/Step.lean ====
section
/-! DEFINITION. One step of the machine. -/

namespace Sys2Proof.Machine

/-- One step: whoever the schedule names moves, with the spec's OPEN primitive. -/
def step (s : State) : Host.Outcome State Fault Refusal := stepWith Config.fpePrim s

/-- `s` with the command `w` just accepted and the unit next to move, so that the next step executes
that command (assumption 3). -/
def State.withFetchWord (s : State) (nbits w : Nat) : State :=
  { accept (BitVec.ofNat 64 (w % 2 ^ nbits)) s with
    preq := none
    sched := match s.sched with
      | [] => []
      | m :: rest => .unit :: m :: rest }

end Sys2Proof.Machine
end

