-- ==== Sys2Proof/Safety.lean ====
section
/-! DEFINITION. The terms claims are stated in: what a completion and a frame are, which error a
command reports first, the invariants of a run, what of a state is secret, and the assumptions on the
primitive. -/

namespace Sys2Proof.Machine

/-- The command in flight has completed with `code` (60_exceptions.md R204). -/
structure Completed (code : ErrCode) (t : State) : Prop where
  phase : t.phase = .idle
  busy : t.status.busy = false
  done : t.status.done = true
  err : t.status.err = true ↔ code ≠ .none
  errCode : t.status.errCode = code

/-- What a command writes beside `STATUS` and the phase. -/
structure Writes where
  res : Bool := false
  key : Bool := false
  hex : Bool := false
  aff : Bool := false
  fpe : Bool := false
  deriving DecidableEq, Repr

/-- The window offsets whose reads a command may change: `STATUS` (0x08), and `RES`, `HEX0`, `HEX1`
where it writes them. -/
def Writes.offsets (w : Writes) : List Nat :=
  [0x08] ++ (if w.res then [0x18] else []) ++ (if w.hex then [0x40, 0x48] else [])

/-- Everything but `STATUS`, the phase, the latch (unspecified in `IDLE`) and what `w` names is
unchanged, and so is every window read at another offset (60_exceptions.md R204). -/
structure Frame (w : Writes) (s t : State) : Prop where
  cmd : t.cmd = s.cmd
  ovr : t.status.ovr = s.status.ovr
  opa : t.opa = s.opa ∧ t.opaWr = s.opaWr
  res : w.res = false → t.res = s.res
  key : w.key = false → t.key = s.key ∧ t.keyWr = s.keyWr
  hex : w.hex = false → t.hex = s.hex ∧ t.hexWr = s.hexWr
  aff : w.aff = false → t.affCtx = s.affCtx
  fpe : w.fpe = false → t.fpeCtx = s.fpeCtx
  preq : t.preq = s.preq
  host : t.host = s.host
  sched : t.sched = s.sched
  window : ∀ off, off ∉ w.offsets → busRead off t = busRead off s

/-- The cause of `INVALID_WIDTH` (60_exceptions.md R207). -/
def badWidth : Instr → Bool
  | .inv n => decide (n ∉ [8, 16, 32, 64])
  | .affLoad n => decide (n ∉ [8, 16, 32, 64])
  | .hexEnc n => decide (n ∉ [32, 64])
  | .hexDec n => decide (n ∉ [32, 64])
  | .fpeLoad n _ => decide (n ∉ [32, 64])
  | .nop => false
  | .affScr => false
  | .affUnscr => false
  | .affClear => false
  | .fpeScr => false
  | .fpeUnscr => false
  | .fpeClear => false

/-- The cause of `INVALID_KEY_SIZE` (60_exceptions.md R210). -/
def badKeySize : Instr → Bool
  | .fpeLoad _ k => decide (k ∉ [16, 24, 32])
  | .nop => false
  | .inv _ => false
  | .affLoad _ => false
  | .affScr => false
  | .affUnscr => false
  | .affClear => false
  | .hexEnc _ => false
  | .hexDec _ => false
  | .fpeScr => false
  | .fpeUnscr => false
  | .fpeClear => false

/-- The cause of `NO_CONTEXT` (60_exceptions.md R214). -/
def lacksContext (s : State) : Instr → Bool
  | .affScr => !s.affCtx.valid
  | .affUnscr => !s.affCtx.valid
  | .fpeScr => !s.fpeCtx.valid
  | .fpeUnscr => !s.fpeCtx.valid
  | .nop => false
  | .inv _ => false
  | .affLoad _ => false
  | .affClear => false
  | .hexEnc _ => false
  | .hexDec _ => false
  | .fpeLoad _ _ => false
  | .fpeClear => false

/-- The cause of `NULL_OPERAND` (60_exceptions.md R209). -/
def missingOperand (l : Latch) : Instr → Bool
  | .inv _ => !l.opaWr
  | .affLoad _ => !l.opaWr
  | .affScr => !l.opaWr
  | .affUnscr => !l.opaWr
  | .hexEnc _ => !l.opaWr
  | .fpeScr => !l.opaWr
  | .fpeUnscr => !l.opaWr
  | .hexDec n => !l.hexWr[0] || (n == 64 && !l.hexWr[1])
  | .fpeLoad _ k => (List.range (k / 8)).any fun r => l.keyWr[r]? == some false
  | .nop => false
  | .affClear => false
  | .fpeClear => false

/-- The width of a command's integer operand (60_exceptions.md R215), where it has one. -/
def operandWidth (s : State) : Instr → Option Nat
  | .inv n => some n
  | .affLoad n => some n
  | .hexEnc n => some n
  | .affScr => some s.affCtx.width.toNat
  | .affUnscr => some s.affCtx.width.toNat
  | .fpeScr => some s.fpeCtx.width.toNat
  | .fpeUnscr => some s.fpeCtx.width.toNat
  | .nop => none
  | .affClear => none
  | .hexDec _ => none
  | .fpeLoad _ _ => none
  | .fpeClear => none

/-- The cause of `OPERAND_RANGE` (60_exceptions.md R215). -/
def outOfRange (s : State) (i : Instr) : Bool :=
  match operandWidth s i with
  | some n => decide (2 ^ n ≤ s.latch.opa.toNat)
  | none => false

/-- The cause of `NOT_ODD` (60_exceptions.md R208). -/
def badSalt (salt : Word) : Instr → Bool
  | .inv _ => salt.toNat % 2 == 0
  | .affLoad _ => salt.toNat % 2 == 0 || salt.toNat == 1
  | .nop => false
  | .affScr => false
  | .affUnscr => false
  | .affClear => false
  | .hexEnc _ => false
  | .hexDec _ => false
  | .fpeLoad _ _ => false
  | .fpeScr => false
  | .fpeUnscr => false
  | .fpeClear => false

/-- A byte that is a lowercase hexadecimal character (42_fpe_integer_encoder.md R152). -/
def isHexChar (b : Byte) : Bool :=
  (decide (0x30 ≤ b.toNat) && decide (b.toNat ≤ 0x39))
    || (decide (0x61 ≤ b.toNat) && decide (b.toNat ≤ 0x66))

/-- The digit value of a lowercase hexadecimal character (42_fpe_integer_encoder.md R152). -/
def charValue (b : Byte) : Nat := if b.toNat ≤ 0x39 then b.toNat - 0x30 else b.toNat - 0x61 + 10

/-- Digit `j` of the `ld` hexadecimal digits of `v`, the most significant first (42 R150). -/
def digitAt (ld v j : Nat) : Nat := v / 16 ^ (ld - 1 - j) % 16

/-- The cause of `ENCODING_ERROR` in `HEX_DEC` (60_exceptions.md R211). -/
def badString (l : Latch) : Instr → Bool
  | .hexDec n => (List.range (n / 4)).any fun k => !isHexChar (stringByte l.hex k)
  | .nop => false
  | .inv _ => false
  | .affLoad _ => false
  | .affScr => false
  | .affUnscr => false
  | .affClear => false
  | .hexEnc _ => false
  | .fpeLoad _ _ => false
  | .fpeScr => false
  | .fpeUnscr => false
  | .fpeClear => false

/-- The first of a command's errors in the order of 60_exceptions.md R202, items 2 to 8; `none` where
no cause applies. -/
def firstError (i : Instr) (s : State) : ErrCode :=
  if badWidth i then .invalidWidth
  else if badKeySize i then .invalidKeySize
  else if lacksContext s i then .noContext
  else if missingOperand s.latch i then .nullOperand
  else if outOfRange s i then .operandRange
  else if badSalt s.latch.opa i then .notOdd
  else if badString s.latch i then .encodingError
  else .none

/-- The host writes the value `c` to `CMD`, and then the unit moves: one command of a host that polls
(30_encoding.md R85), up to its completion or its primitive call. -/
def issue (c : Word) (s : State) : Out := unitStep (busWrite 0x00 c s)

/-- The host writes `v` to `OPA` and issues `c`. -/
def issueWith (v c : Word) (s : State) : Out := issue c (busWrite 0x10 v s)

/-- The host writes `v` to `OPA` and issues `c`, and the primitive `p` answers. -/
def issueToPrim (p : FpePrim) (v c : Word) (s : State) : Out :=
  match issueWith v c s with
  | .next t => primStep p t
  | .fault e => .fault e
  | .refused e => .refused e

/-- `STATUS.BUSY`, the phase, `PREQ`, the error fields and the latched command agree (10_state.md R24,
R25, R27, R36, R41; 70_reset_and_hazards.md R240). -/
structure LifecycleInv (s : State) : Prop where
  busy : s.status.busy = true ↔ s.phase ≠ .idle
  preq : s.preq.isSome = true ↔ s.phase = .waitPrim
  running : s.phase ≠ .idle →
    s.status.done = false ∧ s.status.err = false ∧ s.status.errCode = .none
  err : s.status.err = true ↔ s.status.errCode ≠ .none
  latched : s.phase ≠ .idle → s.cmd = s.latch.cmd

/-- The invariant of the affine context (10_state.md R40). -/
structure AffCtxInv (c : AffCtx) : Prop where
  width : c.valid = true → c.width.toNat ∈ [8, 16, 32, 64]
  salt : c.valid = true → c.salt.toNat < 2 ^ c.width.toNat ∧ 1 < c.salt.toNat ∧ c.salt.toNat % 2 = 1
  inv : c.valid = true → c.inv.toNat < 2 ^ c.width.toNat
    ∧ c.salt.toNat * c.inv.toNat % 2 ^ c.width.toNat = 1
  cleared : c.valid = false → c = ⟨false, 0, 0, 0⟩

/-- The invariant of the FPE context (10_state.md R39, R40). -/
structure FpeCtxInv (c : FpeCtx) : Prop where
  width : c.valid = true → c.width.toNat ∈ [32, 64]
  keylen : c.valid = true → c.keylen.toNat ∈ [16, 24, 32]
  padding : c.valid = true → ∀ j (h : j < 32), c.keylen.toNat ≤ j → c.key[j] = 0
  cleared : c.valid = false → c = ⟨false, 0, 0, Vector.replicate 32 0⟩

/-- A pending request is the one that the FPE context and the latched operand make, for the command in
the latch (10_state.md R41, 43_fpe_scrambler.md R172, R182, R185). -/
structure RequestInv (s : State) : Prop where
  waiting : ∀ r, s.preq = some r → s.phase = .waitPrim
  context : ∀ r, s.preq = some r → s.fpeCtx.valid = true ∧ s.latch.opaWr = true
    ∧ s.latch.opa.toNat < 2 ^ s.fpeCtx.width.toNat
  request : ∀ r, s.preq = some r → r = primRequest r.dir s.fpeCtx s.latch.opa
  command : ∀ r, s.preq = some r →
    decode s.latch.cmd = .ok (match r.dir with | .enc => .fpeScr | .dec => .fpeUnscr)

/-- `DONE = 0` in `IDLE` only before the first command: nothing a command writes has been written
(10_state.md R26, R44). -/
def FreshInv (s : State) : Prop :=
  s.phase = .idle → s.status.done = false →
    s.cmd = 0 ∧ s.status.ovr = false ∧ s.status.err = false ∧ s.status.errCode = .none
      ∧ s.res = 0 ∧ s.affCtx = AffCtx.cleared ∧ s.fpeCtx = FpeCtx.cleared

/-- A register whose written flag is 0 holds 0 (10_state.md R31, R44; 43_fpe_scrambler.md R186). -/
structure WrittenInv (s : State) : Prop where
  opa : s.opaWr = false → s.opa = 0
  key : ∀ i (h : i < 4), s.keyWr[i] = false → s.key[i] = 0
  hex : ∀ i (h : i < 2), s.hexWr[i] = false → s.hex[i] = 0

/-- Every key of the list lies above `x`. -/
def varsAbove (x : Nat) (vars : List (Nat × Word)) : Bool := vars.all fun p => decide (x < p.1)

/-- The unit's state after reset, but for the latch, whose value 10_state.md R44 leaves unspecified. -/
structure AtReset (t : State) : Prop where
  cmd : t.cmd = 0
  status : t.status = ⟨false, false, false, false, .none⟩
  statusWord : statusWord t = 0
  opa : t.opa = 0 ∧ t.opaWr = false
  res : t.res = 0
  key : ∀ i (h : i < 4), t.key[i] = 0 ∧ t.keyWr[i] = false
  hex : ∀ i (h : i < 2), t.hex[i] = 0 ∧ t.hexWr[i] = false
  phase : t.phase = .idle
  preq : t.preq = none
  aff : t.affCtx = ⟨false, 0, 0, 0⟩
  fpe : t.fpeCtx.valid = false ∧ t.fpeCtx.width = 0 ∧ t.fpeCtx.keylen = 0
    ∧ ∀ j (h : j < 32), t.fpeCtx.key[j] = 0

/-- The canonical form of the host's variables: rising, no value 0 (assumption 9). -/
def varsWf : List (Nat × Word) → Bool
  | [] => true
  | (x, v) :: rest => decide (v ≠ 0) && varsAbove x rest && varsWf rest

/-- The state without its key material: the KEY registers, their latched copies, the key of the FPE
context and the key of the request (10_state.md R34, R39). -/
def State.withoutKeys (s : State) : State :=
  { s with
    key := Vector.replicate 4 0
    latch := { s.latch with key := Vector.replicate 4 0 }
    fpeCtx := { s.fpeCtx with key := Vector.replicate 32 0 }
    preq := s.preq.map fun r => { r with key := [] } }

/-- Two outcomes that agree but for key material. -/
def SameButKeys : Out → Out → Prop
  | .next t, .next t' => t.withoutKeys = t'.withoutKeys
  | .fault e, .fault e' => e = e'
  | .refused e, .refused e' => e = e'
  | .next _, .fault _ => False
  | .next _, .refused _ => False
  | .fault _, .next _ => False
  | .fault _, .refused _ => False
  | .refused _, .next _ => False
  | .refused _, .fault _ => False

end Sys2Proof.Machine

namespace Sys2Proof

/-- P-RT (43_fpe_scrambler.md R173), on the keys and lengths of the port's type (R171): `dec` undoes
`enc`. A hypothesis of a claim, never a fact of the machine. -/
def FpePrim.RoundTrip (p : FpePrim) : Prop :=
  ∀ (key : List Byte) (ld : Nat) (d c : Vector Digit ld),
    key.length ∈ [16, 24, 32] → ld ∈ [8, 16] → p.enc key ld d = .ok c → p.dec key ld c = .ok d

/-- P-TOT (43_fpe_scrambler.md R173), on the keys and lengths of the port's type (R171): `enc` never
answers `REJECT`. A hypothesis of a claim, never a fact of the machine. -/
def FpePrim.EncNeverRejects (p : FpePrim) : Prop :=
  ∀ (key : List Byte) (ld : Nat) (d : Vector Digit ld),
    key.length ∈ [16, 24, 32] → ld ∈ [8, 16] → p.enc key ld d ≠ .reject

/-- "No `FAIL`" of `enc` (43_fpe_scrambler.md R187), which R173 says the source does not state. A
hypothesis of a claim, never a fact of the machine. -/
def FpePrim.EncNeverFails (p : FpePrim) : Prop :=
  ∀ (key : List Byte) (ld : Nat) (d : Vector Digit ld),
    key.length ∈ [16, 24, 32] → ld ∈ [8, 16] → p.enc key ld d ≠ .fail

/-- `enc` always answers `OK`: P-TOT and no `FAIL` together (Laws/Ops.lean, `alwaysOk_iff`). -/
def FpePrim.AlwaysOk (p : FpePrim) : Prop :=
  ∀ (key : List Byte) (ld : Nat) (d : Vector Digit ld),
    key.length ∈ [16, 24, 32] → ld ∈ [8, 16] → ∃ c, p.enc key ld d = .ok c

end Sys2Proof
end

