-- ==== Sys2Proof/Certificates/Slice0/Obligations.lean ====
section
/-! DEFINITION. The statements for the provers. -/

open Sys2Proof Sys2Proof.Machine

/-! ### Command encoding -/

/-- Every well-formed command is the one its word decodes to (30_encoding.md R70, R76). -/
def Obligations.DecodeUndoesEncode : Prop :=
  ∀ i : Instr, i.wellFormed = true → decode (encode i) = .ok i

/-- A value that decodes is the word of the command it decodes to, which is well formed: no two values
share a command and no bit is ignored (30_encoding.md R70, R74, R75, R77). -/
def Obligations.EncodeUndoesDecode : Prop :=
  ∀ (c : Word) (i : Instr), decode c = .ok i → i.wellFormed = true ∧ encode i = c

/-- The decoder accepts exactly the legal values, and the predicate of 30_encoding.md R78 agrees with
the masks and matches of the opcode table. -/
def Obligations.DecodedExactlyWhenLegal : Prop :=
  ∀ c : Word, ((∃ i, decode c = .ok i) ↔ legal c = true) ∧ legal c = tableLegal c

/-- Words of every family, from the table of 30_encoding.md R86. -/
def Obligations.TableWordsDecode : Prop :=
  decode 0x0 = .ok .nop ∧ decode 0x401 = .ok (.inv 64) ∧ decode 0x102 = .ok (.affLoad 16)
    ∧ decode 0x3 = .ok .affScr ∧ decode 0x5 = .ok .affClear ∧ decode 0x206 = .ok (.hexEnc 32)
    ∧ decode 0x407 = .ok (.hexDec 64) ∧ decode 0x18408 = .ok (.fpeLoad 64 24)
    ∧ decode 0xA = .ok .fpeUnscr ∧ decode 0xB = .ok .fpeClear

/-- The word that the host assembly's `cmd` writes is the encoding of the command (30_encoding.md
R85). -/
def Obligations.AssemblyWordIsEncoding : Prop :=
  ∀ i : Instr, i.wellFormed = true → sourceWord i.opcode i.widthField i.klenField = encode i

/-! ### The step and the command's life -/

/-- A unit move in `EXEC` runs the latched command: the step is `exec` of it, at the state without the
schedule's first entry (60_exceptions.md R201). That an empty schedule is the unit's turn is the
model's choice (DESIGN CHOICE, assumption 2). -/
def Obligations.StepRunsDecodedCommand : Prop :=
  ∀ (s : State) (i : Instr), s.phase = .exec →
    (s.sched = [] ∨ s.sched.head? = some .unit) → decode s.latch.cmd = .ok i →
    step s = exec i { s with sched := s.sched.tail }

/-- Acceptance: the value and the operands are latched, `STATUS` is cleared but for `BUSY`, and nothing
else changes. Every value is accepted, and an illegal one then completes with `ILLEGAL_COMMAND`. The
same write in another phase is no acceptance: it only sets `OVR` (60_exceptions.md R200). -/
def Obligations.CommandWriteIsAcceptedWhenIdle : Prop :=
  ∀ (c : Word) (s : State),
    (s.phase = .idle → busWrite 0x00 c s = { s with
      cmd := c
      latch := ⟨c, s.opa, s.opaWr, s.key, s.keyWr, s.hex, s.hexWr⟩
      status := ⟨true, false, false, false, .none⟩
      phase := .exec }) ∧
    (s.phase = .idle → legal c = false →
      ∃ t, unitStep (busWrite 0x00 c s) = .next t ∧ Completed .illegalCommand t) ∧
    (s.phase ≠ .idle → busWrite 0x00 c s = { s with status := { s.status with ovr := true } })

/-- `OVR` is set by a `CMD` write while `BUSY = 1`, cleared by the next acceptance, and cleared by
nothing else; the reset event, which sets everything (70 R230), is set aside (10_state.md R28). -/
def Obligations.OverrunIsStickyUntilAcceptance : Prop :=
  (∀ (c : Word) (s : State), LifecycleInv s → s.status.busy = true →
    (busWrite 0x00 c s).status.ovr = true) ∧
  (∀ (c : Word) (s : State), s.phase = .idle → (busWrite 0x00 c s).status.ovr = false) ∧
  (∀ (p : FpePrim) (s t : State), stepWith p s = .next t → s.status.ovr = true →
    t.status.ovr = false → s.sched.head? ≠ some .reset → s.phase = .idle ∧ t.phase = .exec)

/-- What makes a value illegal, and that an illegal command completes with `ILLEGAL_COMMAND` and no
other effect (60_exceptions.md R206). -/
def Obligations.IllegalCommandHasNoOtherEffect : Prop :=
  (∀ c : Word, legal c = false ↔
    (bits c 63 18 ≠ 0 ∨ 0xC ≤ bits c 3 0
      ∨ (bits c 3 0 ∉ [0x1, 0x2, 0x6, 0x7, 0x8] ∧ bits c 11 4 ≠ 0)
      ∨ (bits c 3 0 ≠ 0x8 ∧ bits c 17 12 ≠ 0))) ∧
  (∀ s : State, s.phase = .exec → legal s.latch.cmd = false →
    ∃ t, unitStep s = .next t ∧ Completed .illegalCommand t ∧ Frame {} s t)

/-- A command whose first error is `firstError` completes with it and changes nothing else: neither
`RES`, the data registers nor a context (60_exceptions.md R202, R204, R207 to R210, R214, R215). -/
def Obligations.FirstErrorIsReported : Prop :=
  ∀ (i : Instr) (s : State), firstError i s ≠ .none →
    ∃ t, exec i s = .next t ∧ Completed (firstError i s) t ∧ Frame {} s t

/-- A command with no error completes with `NONE`, unless it is an FPE scramble, which then waits for
the primitive (60_exceptions.md R201, R202, R204). -/
def Obligations.NoErrorMeansSuccess : Prop :=
  ∀ (i : Instr) (s : State), firstError i s = .none →
    ∃ t, exec i s = .next t ∧
      if i = .fpeScr ∨ i = .fpeUnscr then t.phase = .waitPrim else Completed .none t

/-- What the host reads in `STATUS` when a command has completed: the number of its code, `ERR` set
unless that is 0, `BUSY` 0 and `DONE` 1 (60_exceptions.md R203, R204; 10_state.md R24). -/
def Obligations.CompletionShowsItsCode : Prop :=
  ∀ x ∈ [(ErrCode.none, 0), (.invalidWidth, 1), (.notOdd, 2), (.nullOperand, 3),
      (.invalidKeySize, 4), (.encodingError, 5), (.encryptionError, 6), (.decryptionError, 7),
      (.noContext, 8), (.illegalCommand, 9), (.operandRange, 10)],
    ∀ t : State, Completed x.1 t →
      bits (busRead 0x08 t) 11 8 = x.2 ∧ bits (busRead 0x08 t) 2 2 = (if x.2 = 0 then 0 else 1) ∧
      bits (busRead 0x08 t) 0 0 = 0 ∧ bits (busRead 0x08 t) 1 1 = 1

/-- No command's outcome depends on a flag of `STATUS`: with other flags before it, it does the same
and ends with the same code (10_state.md R42). -/
def Obligations.CommandsIgnoreStatusFlags : Prop :=
  ∀ (i : Instr) (s t : State) (st : Status), exec i s = .next t →
    ∃ t', exec i { s with status := st } = .next t' ∧ { t' with status := t.status } = t ∧
      (t.phase = .idle → t'.status.errCode = t.status.errCode)

/-! ### Reset -/

/-- The reset values, after power-on and after a reset event in any state (10_state.md R44,
70_reset_and_hazards.md R230). -/
def Obligations.ResetSetsEveryValue : Prop :=
  AtReset State.reset ∧ ∀ (p : FpePrim) (s : State), ∃ t, move p .reset s = .next t ∧ AtReset t

/-- Reset while a command is in flight aborts it, and a later answer to the discarded request changes
nothing (70_reset_and_hazards.md R231). -/
def Obligations.ResetAbortsCommandInFlight : Prop :=
  ∀ (p : FpePrim) (s : State), s.phase ≠ .idle →
    ∃ t, move p .reset s = .next t ∧ AtReset t ∧ move p .prim t = .next t ∧
      ∀ (ld : Nat) (a : PrimResult ld), move p (.lateAnswer ld a) t = .next t

/-! ### What other agents see and do while a command is in flight -/

/-- A unit in `WAIT_PRIM` stays there, its request pending, until the primitive or a reset moves
(60_exceptions.md R205, 70_reset_and_hazards.md R246). -/
def Obligations.OnlyAnswerOrResetEndsWaiting : Prop :=
  ∀ (p : FpePrim) (s t : State), stepWith p s = .next t → s.phase = .waitPrim →
    s.sched.head? ≠ some .prim → s.sched.head? ≠ some .reset →
    t.phase = .waitPrim ∧ t.preq = s.preq ∧ t.status.busy = s.status.busy

/-- While a command is in flight `RES` and the contexts keep their values, and `HEX0`, `HEX1` too but
for the host's own writes (70_reset_and_hazards.md R243, 20_memory.md R61). -/
def Obligations.ResultsHoldUntilCompletion : Prop :=
  ∀ (p : FpePrim) (s t : State), stepWith p s = .next t → s.phase ≠ .idle → t.phase ≠ .idle →
    t.res = s.res ∧ t.affCtx = s.affCtx ∧ t.fpeCtx = s.fpeCtx ∧
      (s.sched.head? ≠ some .host → t.hex = s.hex ∧ t.hexWr = s.hexWr)

/-- A host write to an operand register while a command is in flight sets it and its flag at once, and
does not affect the command: it commutes with the unit's move and with the primitive's. Where the
command overwrites that register the write is lost at its completion: `FPE_CLEAR` and the KEY
registers, a successful `HEX_ENC` and the HEX registers (70_reset_and_hazards.md R241, R242). -/
def Obligations.OperandWritesSpareTheRunningCommand : Prop :=
  (∀ (s : State) (v : Word), writeReg .opa v s = { s with opa := v, opaWr := true } ∧
    (∀ i : Fin 4, writeReg (.key i) v s =
      { s with key := s.key.set i v, keyWr := s.keyWr.set i true }) ∧
    ∀ i : Fin 2, writeReg (.hex i) v s =
      { s with hex := s.hex.set i v, hexWr := s.hexWr.set i true }) ∧
  (∀ (s t : State) (v : Word), s.phase = .exec → unitStep s = .next t →
    unitStep (writeReg .opa v s) = .next (writeReg .opa v t) ∧
    (∀ i : Fin 4,
      (decode s.latch.cmd = .ok .fpeClear → unitStep (writeReg (.key i) v s) = .next t) ∧
      (decode s.latch.cmd ≠ .ok .fpeClear →
        unitStep (writeReg (.key i) v s) = .next (writeReg (.key i) v t))) ∧
    (∀ i : Fin 2,
      ((∃ n, decode s.latch.cmd = .ok (.hexEnc n) ∧ firstError (.hexEnc n) s = .none) →
        unitStep (writeReg (.hex i) v s) = .next t) ∧
      ((¬∃ n, decode s.latch.cmd = .ok (.hexEnc n) ∧ firstError (.hexEnc n) s = .none) →
        unitStep (writeReg (.hex i) v s) = .next (writeReg (.hex i) v t)))) ∧
  (∀ (p : FpePrim) (s t : State) (v : Word), s.phase = .waitPrim → primStep p s = .next t →
    primStep p (writeReg .opa v s) = .next (writeReg .opa v t) ∧
    (∀ i : Fin 4, primStep p (writeReg (.key i) v s) = .next (writeReg (.key i) v t)) ∧
    (∀ i : Fin 2, primStep p (writeReg (.hex i) v s) = .next (writeReg (.hex i) v t)))

/-- `OPA`: a write stores it and sets its flag, a read returns it, no agent but the host (and reset)
writes it, and no command reads it but through the latch (10_state.md R32). -/
def Obligations.OperandRegisterBelongsToTheHost : Prop :=
  (∀ (v : Word) (s : State), (busWrite 0x10 v s).opa = v ∧ (busWrite 0x10 v s).opaWr = true ∧
    busRead 0x10 (busWrite 0x10 v s) = v ∧ busRead 0x10 s = s.opa) ∧
  busRead 0x10 State.reset = 0 ∧
  (∀ (p : FpePrim) (s t : State), stepWith p s = .next t → s.sched.head? ≠ some .host →
    s.sched.head? ≠ some .reset → t.opa = s.opa ∧ t.opaWr = s.opaWr) ∧
  (∀ (i : Instr) (s t : State) (v : Word), exec i s = .next t →
    exec i { s with opa := v } = .next { t with opa := v })

/-- `RES` changes only when a command that produces a result completes without error (10_state.md R33,
R21). -/
def Obligations.ResultWrittenOnlyOnSuccess : Prop :=
  ∀ (p : FpePrim) (s t : State), RequestInv s → stepWith p s = .next t →
    s.sched.head? ≠ some .reset → t.res ≠ s.res →
    s.phase ≠ .idle ∧ Completed .none t ∧
      ∃ i, decode s.latch.cmd = .ok i ∧ ((∃ n, i = .inv n) ∨ i = .affScr ∨ i = .affUnscr
        ∨ i = .fpeScr ∨ i = .fpeUnscr ∨ ∃ n, i = .hexDec n)

/-! ### The register window -/

/-- The effects of the accesses that store nothing or return nothing (20_memory.md R54). -/
def Obligations.ReadOnlyWriteOnlyAndUnmappedAccesses : Prop :=
  ∀ (v : Word) (s : State),
    (∀ off ∈ [0x50, 0x58, 0x60, 0x68, 0x70, 0x78], busRead off s = 0 ∧ busWrite off v s = s) ∧
    (∀ off ∈ [0x08, 0x18], busWrite off v s = s) ∧
    (∀ off ∈ [0x20, 0x28, 0x30, 0x38], busRead off s = 0)

/-- A host write to `KEYi` or `HEXi` stores it, sets its flag and changes nothing else; a read of
`HEXi`, `CMD` or `RES` returns the value the register holds (10_state.md R23, R31, R33, R34, R35;
20_memory.md R52). -/
def Obligations.KeyAndHexWritesStore : Prop :=
  ∀ (v : Word) (s : State),
    busRead 0x00 s = s.cmd ∧ busRead 0x18 s = s.res ∧
    (∀ i : Fin 2, busRead (0x40 + 8 * i.val) s = s.hex[i]) ∧
    (∀ i : Fin 4, busWrite (0x20 + 8 * i.val) v s =
      { s with key := s.key.set i v, keyWr := s.keyWr.set i true }) ∧
    (∀ i : Fin 2, busWrite (0x40 + 8 * i.val) v s =
      { s with hex := s.hex.set i v, hexWr := s.hexWr.set i true } ∧
      busRead (0x40 + 8 * i.val) (busWrite (0x40 + 8 * i.val) v s) = v)

/-- Only an aligned 64-bit access is defined; the model refuses every other in the window
(20_memory.md R53). `wr <REG>` and `rd <REG>` are such accesses at the offset of the register
(20_memory.md R52, 30_encoding.md R84). -/
def Obligations.OnlyAlignedWordAccessesAreDefined : Prop :=
  (∀ r ∈ [(Reg.cmd, 0x00), (.status, 0x08), (.opa, 0x10), (.res, 0x18), (.key 0, 0x20),
      (.key 1, 0x28), (.key 2, 0x30), (.key 3, 0x38), (.hex 0, 0x40), (.hex 1, 0x48)],
    ∀ (s : State) (x : Nat) (src : Src),
      hostStmt (.wr (.reg r.1) src) s
        = .next { busWrite r.2 (src.value s.host) s with host := s.host.advance } ∧
      hostStmt (.rd (.reg r.1) x) s
        = .next { s with host := s.host.setVar x (busRead r.2 s) }) ∧
  ∀ (s : State) (off bytes x : Nat) (src : Src), off < 0x80 →
    if bytes = 8 ∧ off % 8 = 0 then
      hostStmt (.wr (.off off bytes) src) s
        = .next { busWrite off (src.value s.host) s with host := s.host.advance } ∧
      hostStmt (.rd (.off off bytes) x) s
        = .next { s with host := s.host.setVar x (busRead off s) }
    else
      hostStmt (.wr (.off off bytes) src) s = .refused .narrowAccess ∧
      hostStmt (.rd (.off off bytes) x) s = .refused .narrowAccess

/-- The unit decodes only the offset from `UNIT_BASE`, and only offsets below 0x80, for a write and for
a read (20_memory.md R51); that an access elsewhere faults is the model's choice (assumption 7). -/
def Obligations.WindowStartsAtUnitBase : Prop :=
  ∀ (s : State) (a bytes x : Nat) (src : Src),
    (Config.unitBase ≤ a → hostStmt (.wr (.addr a bytes) src) s
      = hostStmt (.wr (.off (a - Config.unitBase) bytes) src) s) ∧
    (Config.unitBase ≤ a → hostStmt (.rd (.addr a bytes) x) s
      = hostStmt (.rd (.off (a - Config.unitBase) bytes) x) s) ∧
    (a < Config.unitBase ∨ 0x80 ≤ a - Config.unitBase →
      hostStmt (.wr (.addr a bytes) src) s = .fault .outsideWindow ∧
      hostStmt (.rd (.addr a bytes) x) s = .fault .outsideWindow)

/-- The host assembly's jump: `bnz` goes to the label when a masked bit of the variable is set, else to
the next statement (30_encoding.md R84). That the first of several statements with the label is the
target, that the host stands at the label itself, and that a variable never set reads 0 are the
model's choices (DESIGN CHOICE, assumption 9). -/
def Obligations.BranchOnMaskedBits : Prop :=
  ∀ (s : State) (x l pre : Nat) (mask : Word),
    (varGet x s.host.vars &&& mask = 0 →
      hostStmt (.bnz x mask l) s = .next { s with host := { s.host with pos := s.host.pos + 1 } }) ∧
    (varGet x s.host.vars &&& mask ≠ 0 → s.host.prog[pre]? = some (.label l) →
      (∀ j, j < pre → s.host.prog[j]? ≠ some (.label l)) →
      hostStmt (.bnz x mask l) s = .next { s with host := { s.host with pos := pre } })

/-- Every field of `STATUS` at its place, the reserved fields 0, and the legal values, with the mirrors
of the contexts; the host reads it and its writes are ignored (10_state.md R24, R29, R30). -/
def Obligations.StatusFieldsAtTheirPlaces : Prop :=
  busRead 0x08 State.reset = 0 ∧
  ∀ s : State,
    busRead 0x08 s = statusWord s ∧ (∀ v : Word, busWrite 0x08 v s = s) ∧
    (bits (statusWord s) 0 0 = s.status.busy.toNat ∧ bits (statusWord s) 1 1 = s.status.done.toNat ∧
      bits (statusWord s) 2 2 = s.status.err.toNat ∧ bits (statusWord s) 3 3 = s.status.ovr.toNat ∧
      bits (statusWord s) 4 4 = s.affCtx.valid.toNat ∧
      bits (statusWord s) 5 5 = s.fpeCtx.valid.toNat ∧ bits (statusWord s) 7 6 = 0 ∧
      bits (statusWord s) 11 8 = s.status.errCode.number ∧ bits (statusWord s) 11 8 ≤ 10 ∧
      bits (statusWord s) 15 12 = 0 ∧
      bits (statusWord s) 23 16 = (if s.affCtx.valid then s.affCtx.width.toNat else 0) ∧
      bits (statusWord s) 31 24 = (if s.fpeCtx.valid then s.fpeCtx.width.toNat else 0) ∧
      bits (statusWord s) 63 38 = 0) ∧
    (AffCtxInv s.affCtx → bits (statusWord s) 23 16 ∈ [0, 8, 16, 32, 64]) ∧
    (FpeCtxInv s.fpeCtx →
      bits (statusWord s) 37 32 = (if s.fpeCtx.valid then s.fpeCtx.keylen.toNat else 0) ∧
      bits (statusWord s) 31 24 ∈ [0, 32, 64] ∧ bits (statusWord s) 37 32 ∈ [0, 16, 24, 32])

/-- No read of the window depends on the KEY registers, on the salt or the inverse of the affine
context, or on the key of the FPE context (10_state.md R34, R38, R39). -/
def Obligations.SecretsAreNotReadable : Prop :=
  ∀ (s : State) (off : Nat) (keys : Vector Word 4) (salt inv : Word) (key : Vector Byte 32),
    busRead off { s with
      key := keys
      affCtx := { s.affCtx with salt := salt, inv := inv }
      fpeCtx := { s.fpeCtx with key := key } } = busRead off s

/-- Two states that agree but for key material step to outcomes that agree but for key material,
whoever moves but the primitive: no step carries key bytes to anything the host can see
(10_state.md R34, R39). -/
def Obligations.KeyMaterialReachesOnlyThePrimitive : Prop :=
  ∀ (p : FpePrim) (s s' : State), s.withoutKeys = s'.withoutKeys →
    s.sched.head? ≠ some .prim → SameButKeys (stepWith p s) (stepWith p s')

/-! ### The modular inverse -/

/-- `inv_n(s)` is the unique `r` below `2^n` with `s * r = 1` modulo `2^n` (40_modular_inverse.md R100). -/
def Obligations.InverseExistsAndIsUnique : Prop :=
  ∀ n ∈ [8, 16, 32, 64], ∀ s < 2 ^ n, s % 2 = 1 →
    invN n s < 2 ^ n ∧ s * invN n s % 2 ^ n = 1 ∧
      ∀ r < 2 ^ n, s * r % 2 ^ n = 1 → r = invN n s

/-- `INV` completes with `ERR = 0` on every odd salt in range, and the salt times `RES` is 1; it
changes nothing else (40_modular_inverse.md R103, R105). -/
def Obligations.InvDeliversTheInverse : Prop :=
  ∀ (n : Nat) (s : State), n ∈ [8, 16, 32, 64] → s.latch.opaWr = true →
    s.latch.opa.toNat < 2 ^ n → s.latch.opa.toNat % 2 = 1 →
    ∃ t, exec (.inv n) s = .next t ∧ Completed .none t ∧ Frame { res := true } s t ∧
      t.res.toNat < 2 ^ n ∧ s.latch.opa.toNat * t.res.toNat % 2 ^ n = 1

/-- The inverse of the inverse is the salt, and an inverse is odd (the spec's own inference,
40_modular_inverse.md R107). -/
def Obligations.InverseIsAnInvolution : Prop :=
  ∀ n ∈ [8, 16, 32, 64], ∀ s < 2 ^ n, s % 2 = 1 →
    invN n (invN n s) = s ∧ invN n s % 2 = 1

/-! ### The affine scrambler -/

/-- Bit reversal of exactly n bits, its own inverse (41_affine_scrambler.md R120). -/
def Obligations.BitReversalMovesEveryBit : Prop :=
  ∀ n ∈ [8, 16, 32, 64], ∀ x < 2 ^ n,
    brev n x < 2 ^ n ∧ (∀ i < n, (brev n x).testBit (n - 1 - i) = x.testBit i) ∧
      brev n (brev n x) = x ∧ ∀ high, brev n (x + 2 ^ n * high) = brev n x

/-- The affine map of a salt and its inverse is an involution (41_affine_scrambler.md R123). -/
def Obligations.AffineMapIsAnInvolution : Prop :=
  ∀ n ∈ [8, 16, 32, 64], ∀ s i v : Nat, s * i % 2 ^ n = 1 → v < 2 ^ n →
    aff n s i (aff n s i v) = v

/-- The affine map permutes the n-bit values and keeps 0 (the spec's own inference,
41_affine_scrambler.md R124). -/
def Obligations.AffineMapIsAPermutation : Prop :=
  ∀ n ∈ [8, 16, 32, 64], ∀ s i : Nat, s * i % 2 ^ n = 1 →
    aff n s i 0 = 0 ∧ (∀ v < 2 ^ n, aff n s i v < 2 ^ n) ∧
      (∀ v < 2 ^ n, ∀ w < 2 ^ n, aff n s i v = aff n s i w → v = w) ∧
      ∀ y < 2 ^ n, ∃ v < 2 ^ n, aff n s i v = y

/-- `AFF_LOAD` of an odd salt above 1 in range constructs the context, salt and inverse, and writes
nothing else; the `STATUS` value is the spec's own inference R126 (41_affine_scrambler.md R125, R126). -/
def Obligations.AffLoadConstructsTheContext : Prop :=
  ∀ (n : Nat) (s : State), n ∈ [8, 16, 32, 64] → s.latch.opaWr = true →
    s.latch.opa.toNat < 2 ^ n → s.latch.opa.toNat % 2 = 1 → 1 < s.latch.opa.toNat →
    ∃ t, exec (.affLoad n) s = .next t ∧ Completed .none t ∧ Frame { aff := true } s t ∧
      t.affCtx.valid = true ∧ t.affCtx.width.toNat = n ∧ t.affCtx.salt = s.latch.opa ∧
      t.affCtx.inv.toNat < 2 ^ n ∧ s.latch.opa.toNat * t.affCtx.inv.toNat % 2 ^ n = 1 ∧
      (s.fpeCtx.valid = false → s.status.ovr = false →
        (statusWord t).toNat = n * 2 ^ 16 + 0x12)

/-- `AFF_SCR` and `AFF_UNSCR` multiply by the salt, reverse the bits and multiply by the inverse; they
write `RES` and nothing else, and are the same computation (41_affine_scrambler.md R122, R127, R128). -/
def Obligations.AffineScrambleResult : Prop :=
  (∀ s : State, exec .affUnscr s = exec .affScr s) ∧
  ∀ i ∈ [Instr.affScr, Instr.affUnscr], ∀ s : State, AffCtxInv s.affCtx →
    s.affCtx.valid = true → s.latch.opaWr = true →
    s.latch.opa.toNat < 2 ^ s.affCtx.width.toNat →
    ∃ t, exec i s = .next t ∧ Completed .none t ∧ Frame { res := true } s t ∧
      t.res.toNat = brev s.affCtx.width.toNat
          (s.latch.opa.toNat * s.affCtx.salt.toNat % 2 ^ s.affCtx.width.toNat)
        * s.affCtx.inv.toNat % 2 ^ s.affCtx.width.toNat

/-- Two `AFF_SCR` commands, the second on the result of the first, return the value, for every context
a run can hold (the spec's own inference, 41_affine_scrambler.md R131). -/
def Obligations.ScramblingTwiceReturnsTheValue : Prop :=
  ∀ (s : State) (v : Word), s.phase = .idle → AffCtxInv s.affCtx → s.affCtx.valid = true →
    v.toNat < 2 ^ s.affCtx.width.toNat →
    ∃ t u, issueWith v 0x3 s = .next t ∧ Completed .none t ∧
      issueWith t.res 0x3 t = .next u ∧ Completed .none u ∧ u.res = v

/-- `AFF_CLEAR` empties the affine context and nothing else, and a scramble after it completes with
`NO_CONTEXT` (41_affine_scrambler.md R129). -/
def Obligations.AffClearDestroysTheContext : Prop :=
  ∀ s : State, ∃ t, exec .affClear s = .next t ∧ Completed .none t ∧ Frame { aff := true } s t ∧
    t.affCtx = ⟨false, 0, 0, 0⟩ ∧ bits (statusWord t) 4 4 = 0 ∧ bits (statusWord t) 23 16 = 0 ∧
    ∀ i ∈ [Instr.affScr, Instr.affUnscr], ∃ u, exec i t = .next u ∧ Completed .noContext u

/-! ### The integer encoder -/

/-- The digit vector and its value, which undo each other (42_fpe_integer_encoder.md R150). -/
def Obligations.DigitVectorAndItsValue : Prop :=
  ∀ n ∈ [32, 64],
    (∀ v : Word, v.toNat < 2 ^ n →
      (∀ j (h : j < n / 4), ((hexd (n / 4) v)[j]).toNat
        = bits v (4 * (n / 4 - 1 - j) + 3) (4 * (n / 4 - 1 - j))) ∧
      unhexd (hexd (n / 4) v) = v.toNat) ∧
    (∀ d : Vector Digit (n / 4),
      unhexd d = ∑ j : Fin (n / 4), d[j].toNat * 16 ^ (n / 4 - 1 - j.val) ∧
      unhexd d < 2 ^ n ∧ hexd (n / 4) (BitVec.ofNat 64 (unhexd d)) = d)

/-- The characters of the sixteen digits and what is no character (42_fpe_integer_encoder.md R151,
R152). -/
def Obligations.CharactersOfDigits : Prop :=
  (∀ d : Digit, ord (chr d) = some d ∧ (chr d).toNat
    = (if d.toNat ≤ 9 then 0x30 + d.toNat else 0x61 + (d.toNat - 10))) ∧
  (∀ b : Byte, (isHexChar b = true → (ord b).map BitVec.toNat = some (charValue b)) ∧
    (isHexChar b = false → ord b = none))

/-- `HEX_ENC` writes the lowercase characters, most significant digit first, then zero bytes, sets both
flags, and changes nothing else (42_fpe_integer_encoder.md R153). -/
def Obligations.HexEncWritesTheCharacters : Prop :=
  ∀ (n : Nat) (s : State), n ∈ [32, 64] → s.latch.opaWr = true → s.latch.opa.toNat < 2 ^ n →
    ∃ t, exec (.hexEnc n) s = .next t ∧ Completed .none t ∧ Frame { hex := true } s t ∧
      t.hexWr[0] = true ∧ t.hexWr[1] = true ∧
      ∀ k < 16, stringByte t.hex k
        = if k < n / 4 then chr (BitVec.ofNat 4 (digitAt (n / 4) s.latch.opa.toNat k)) else 0

/-- `HEX_DEC` of a string of lowercase hexadecimal characters writes their value to `RES` and nothing
else (42_fpe_integer_encoder.md R154). -/
def Obligations.HexDecReadsTheCharacters : Prop :=
  ∀ (n : Nat) (s : State), n ∈ [32, 64] → s.latch.hexWr[0] = true →
    (n = 64 → s.latch.hexWr[1] = true) →
    (∀ k < n / 4, isHexChar (stringByte s.latch.hex k) = true) →
    ∃ t, exec (.hexDec n) s = .next t ∧ Completed .none t ∧ Frame { res := true } s t ∧
      t.res.toNat = ∑ k ∈ Finset.range (n / 4),
        charValue (stringByte s.latch.hex k) * 16 ^ (n / 4 - 1 - k)

/-- `HEX_ENC` then `HEX_DEC` of one width return the value (the spec's own inference,
42_fpe_integer_encoder.md R155). -/
def Obligations.EncodeThenDecodeReturnsTheValue : Prop :=
  ∀ (n : Nat) (s : State) (v : Word), n ∈ [32, 64] → s.phase = .idle → v.toNat < 2 ^ n →
    ∃ t u, issueWith v (encode (.hexEnc n)) s = .next t ∧ Completed .none t ∧
      issue (encode (.hexDec n)) t = .next u ∧ Completed .none u ∧ u.res = v

/-- `HEX_DEC` then `HEX_ENC` of its result return the characters; at width 32 `HEX1` need not have been
written (the spec's own inference, 42_fpe_integer_encoder.md R155; R154). -/
def Obligations.DecodeThenEncodeReturnsTheString : Prop :=
  ∀ (n : Nat) (s : State), n ∈ [32, 64] → s.phase = .idle →
    s.hexWr[0] = true → (n = 64 → s.hexWr[1] = true) →
    (∀ k < n / 4, isHexChar (stringByte s.hex k) = true) →
    ∃ t u, issue (encode (.hexDec n)) s = .next t ∧ Completed .none t ∧
      issueWith t.res (encode (.hexEnc n)) t = .next u ∧ Completed .none u ∧
      ∀ k < n / 4, stringByte u.hex k = stringByte s.hex k

/-! ### The FPE scrambler -/

/-- `FPE_LOAD` of a supported width and key size with its KEY registers written constructs the context
from the first `k` key bytes and writes nothing else (43_fpe_scrambler.md R180, R181). -/
def Obligations.FpeLoadConstructsTheContext : Prop :=
  ∀ (n k : Nat) (s : State), n ∈ [32, 64] → k ∈ [16, 24, 32] →
    (∀ r (h : r < 4), r < k / 8 → s.latch.keyWr[r] = true) →
    ∃ t, exec (.fpeLoad n k) s = .next t ∧ Completed .none t ∧ Frame { fpe := true } s t ∧
      t.fpeCtx.valid = true ∧ t.fpeCtx.width.toNat = n ∧ t.fpeCtx.keylen.toNat = k ∧
      ∀ j (h : j < 32), t.fpeCtx.key[j]
        = if j < k then BitVec.ofNat 8 (s.latch.key[j / 8].toNat / 2 ^ (8 * (j % 8))) else 0

/-- `FPE_SCR` and `FPE_UNSCR` with a context and an operand in range put the request on the port and
wait; nothing else changes, `STATUS` included (43_fpe_scrambler.md R172, R182, R185). -/
def Obligations.FpeScrambleCallsThePrimitive : Prop :=
  ∀ x ∈ [(Instr.fpeScr, Dir.enc), (Instr.fpeUnscr, Dir.dec)], ∀ s : State,
    s.fpeCtx.valid = true → s.latch.opaWr = true →
    s.latch.opa.toNat < 2 ^ s.fpeCtx.width.toNat →
    ∃ r, exec x.1 s = .next { s with phase := .waitPrim, preq := some r } ∧ r.dir = x.2 ∧
      r.key = s.fpeCtx.key.toList.take s.fpeCtx.keylen.toNat ∧ r.keylen = s.fpeCtx.keylen ∧
      r.ld = s.fpeCtx.width.toNat / 4 ∧
      ∀ j (h : j < r.ld), r.d[j].toNat = digitAt r.ld s.latch.opa.toNat j

/-- The primitive's answer ends the command: `OK C` writes the value of `C`, `REJECT` and `FAIL` give
the codes of the table, and nothing else changes but that the request is consumed
(43_fpe_scrambler.md R174, 60_exceptions.md R205). -/
def Obligations.AnswersMapToOutcomes : Prop :=
  ∀ (p : FpePrim) (s : State) (r : PrimReq), s.phase = .waitPrim → s.preq = some r →
    ∃ t, primStep p s = .next t ∧
      (∀ c, primResult p r = .ok c → Completed .none t ∧
        Frame { res := true } { s with preq := none } t ∧ t.res = zext64 (unhexd c)) ∧
      (primResult p r = .reject → Completed .encodingError t ∧
        Frame {} { s with preq := none } t) ∧
      (primResult p r = .fail →
        Completed (match r.dir with | .enc => .encryptionError | .dec => .decryptionError) t ∧
        Frame {} { s with preq := none } t)

/-- The round trip: under P-RT, `FPE_UNSCR` of what `FPE_SCR` returned for `v` returns `v`, for every
context a run can hold (the spec's own inference, 43_fpe_scrambler.md R187). -/
def Obligations.FpeUnscrambleUndoesScramble : Prop :=
  ∀ (p : FpePrim) (s t : State) (v : Word), p.RoundTrip → s.phase = .idle →
    FpeCtxInv s.fpeCtx → s.fpeCtx.valid = true → v.toNat < 2 ^ s.fpeCtx.width.toNat →
    issueToPrim p v 0x9 s = .next t → t.status.err = false →
    ∃ u, issueToPrim p t.res 0xA t = .next u ∧ Completed .none u ∧ u.res = v

/-- With P-RT, P-TOT and no `FAIL`, `FPE_SCR` succeeds for every value in range and is a permutation of
them (the spec's own inference, 43_fpe_scrambler.md R187). -/
def Obligations.FpeScrambleIsAPermutation : Prop :=
  ∀ (p : FpePrim) (s : State), p.RoundTrip → p.EncNeverRejects → p.EncNeverFails →
    s.phase = .idle → FpeCtxInv s.fpeCtx → s.fpeCtx.valid = true →
    (∀ v : Word, v.toNat < 2 ^ s.fpeCtx.width.toNat →
      ∃ t, issueToPrim p v 0x9 s = .next t ∧ Completed .none t ∧
        t.res.toNat < 2 ^ s.fpeCtx.width.toNat) ∧
    (∀ (v w : Word) (t u : State), v.toNat < 2 ^ s.fpeCtx.width.toNat →
      w.toNat < 2 ^ s.fpeCtx.width.toNat → issueToPrim p v 0x9 s = .next t →
      issueToPrim p w 0x9 s = .next u → t.res = u.res → v = w)

/-- The FPE pair is no involution: under P-RT alone a second `FPE_SCR` need not return the value
(43_fpe_scrambler.md R188). -/
def Obligations.FpeScrambleIsNoInvolution : Prop :=
  ∃ (p : FpePrim) (s t u : State) (v : Word), p.RoundTrip ∧ s.phase = .idle ∧
    FpeCtxInv s.fpeCtx ∧ s.fpeCtx.valid = true ∧ v.toNat < 2 ^ s.fpeCtx.width.toNat ∧
    issueToPrim p v 0x9 s = .next t ∧ Completed .none t ∧
    issueToPrim p t.res 0x9 t = .next u ∧ Completed .none u ∧ u.res ≠ v

/-- `FPE_CLEAR` empties the FPE context, the KEY registers and their flags, and nothing else; a load
after it without new key writes completes with `NULL_OPERAND` (43_fpe_scrambler.md R186). -/
def Obligations.FpeClearWipesTheKey : Prop :=
  ∀ s : State, ∃ t, exec .fpeClear s = .next t ∧ Completed .none t ∧
    Frame { key := true, fpe := true } s t ∧ t.fpeCtx = FpeCtx.cleared ∧
    (∀ i (h : i < 4), t.key[i] = 0 ∧ t.keyWr[i] = false) ∧
    ∀ n k : Nat, n ∈ [32, 64] → k ∈ [16, 24, 32] →
      ∃ u, issue (encode (.fpeLoad n k)) t = .next u ∧ Completed .nullOperand u

/-! ### No operation -/

/-- `NOP` completes and changes nothing; issued by the host it clears `ERR`, `ERRCODE` and `OVR` and
sets `DONE` (44_nop.md R195). -/
def Obligations.NopOnlyAcknowledges : Prop :=
  (∀ s : State, ∃ t, exec .nop s = .next t ∧ Completed .none t ∧ Frame {} s t) ∧
  (∀ s : State, s.phase = .idle → ∃ t, issue 0x0 s = .next t ∧ Completed .none t ∧
    t.status.ovr = false ∧ t.cmd = 0 ∧ t.opa = s.opa ∧ t.res = s.res ∧ t.key = s.key ∧
    t.hex = s.hex ∧ t.affCtx = s.affCtx ∧ t.fpeCtx = s.fpeCtx)

/-! ### Invariants -/

/-- The invariants hold right after reset (10_state.md R40, R44); that of the host's variables is the
model's own (assumption 9). -/
def Obligations.InvariantsHoldAtReset : Prop :=
  LifecycleInv State.reset ∧ AffCtxInv State.reset.affCtx ∧ FpeCtxInv State.reset.fpeCtx ∧
    RequestInv State.reset ∧ FreshInv State.reset ∧ WrittenInv State.reset ∧
    varsWf State.reset.host.vars = true

/-- Every step keeps `BUSY`, the phase, `PREQ`, the error fields and the latched command in agreement
(10_state.md R24, R25, R27, R36, R37, R41). -/
def Obligations.StepKeepsTheLifecycle : Prop :=
  ∀ s t : State, LifecycleInv s → step s = .next t → LifecycleInv t

/-- Every step keeps the invariant of the affine context: the salt odd, above 1 and in range, and its
inverse (the spec's own inference, 10_state.md R40). -/
def Obligations.StepKeepsTheAffineContext : Prop :=
  ∀ s t : State, AffCtxInv s.affCtx → step s = .next t → AffCtxInv t.affCtx

/-- Every step keeps the invariant of the FPE context, with the zero bytes beyond the key (the spec's
own inference, 10_state.md R40; R39). -/
def Obligations.StepKeepsTheFpeContext : Prop :=
  ∀ s t : State, FpeCtxInv s.fpeCtx → step s = .next t → FpeCtxInv t.fpeCtx

/-- Every step keeps a pending request the one that the context and the latched operand make, for the
latched command (10_state.md R41, 43_fpe_scrambler.md R172, R182, R185). -/
def Obligations.StepKeepsTheRequest : Prop :=
  ∀ s t : State, RequestInv s → step s = .next t → RequestInv t

/-- Every step keeps that `DONE = 0` in `IDLE` only before the first command (10_state.md R26). -/
def Obligations.StepKeepsFreshness : Prop :=
  ∀ s t : State, FreshInv s → step s = .next t → FreshInv t

/-- Every step keeps that a register whose written flag is 0 holds 0 (10_state.md R31, R44). -/
def Obligations.StepKeepsWrittenFlags : Prop :=
  ∀ s t : State, WrittenInv s → step s = .next t → WrittenInv t

/-- Every step keeps the canonical form of the host's variables (assumption 9; 30_encoding.md R84). -/
def Obligations.StepKeepsHostVariables : Prop :=
  ∀ s t : State, varsWf s.host.vars = true → step s = .next t → varsWf t.host.vars = true
end

