-- ==== Sys2Proof/Laws/Arith.lean ====
section
/-! SUPPORT. The arithmetic of the engines on natural numbers. -/

namespace Sys2Proof.Machine

/-- `mod_n` of a natural number is its remainder. -/
theorem modN_natCast (n x : Nat) : modN n (x : Int) = x % 2 ^ n := by
  unfold modN
  rw [← Int.natCast_emod, Int.toNat_natCast]

/-- `mod_n` is congruent to its argument. -/
theorem modN_cast (n : Nat) (x : Int) : ((modN n x : Nat) : Int) = x % ((2 ^ n : Nat) : Int) :=
  Int.toNat_of_nonneg (Int.emod_nonneg _ (by positivity))

theorem modN_lt (n : Nat) (x : Int) : modN n x < 2 ^ n := by
  have h := Int.emod_lt_of_pos x (show (0 : Int) < ((2 ^ n : Nat) : Int) by positivity)
  have := modN_cast n x
  omega

/-- `mulmod_n` multiplies exactly and then reduces (41_affine_scrambler.md R121). -/
theorem mulMod_eq (n a b : Nat) : mulMod n a b = a * b % 2 ^ n := by
  rw [mulMod, ← Int.natCast_mul, modN_natCast]

theorem mulMod_lt (n a b : Nat) : mulMod n a b < 2 ^ n := modN_lt _ _

/-- The affine map over plain products and remainders (41_affine_scrambler.md R122). -/
theorem aff_eq (n s i v : Nat) : aff n s i v = brev n (v * s % 2 ^ n) * i % 2 ^ n := by
  simp [aff, mulMod_eq]

theorem brev_lt (n x : Nat) : brev n x < 2 ^ n := by
  induction n generalizing x with
  | zero => simp [brev]
  | succ n ih =>
    have h := ih (x / 2)
    have : x % 2 * 2 ^ n ≤ 2 ^ n := by
      have := Nat.mul_le_mul_right (2 ^ n) (show x % 2 ≤ 1 by omega)
      simpa using this
    simp only [brev, Nat.pow_succ]
    omega

end Sys2Proof.Machine
end

