-- ==== Sys2Proof/Laws/Decode.lean ====
section
/-! SUPPORT. What the fields of a command word are, and what the decoder answers. -/

namespace Sys2Proof

/-- An appended word as a number. -/
theorem toNat_append_add {v w : Nat} (x : BitVec v) (y : BitVec w) :
    (x ++ y).toNat = x.toNat * 2 ^ w + y.toNat := by
  rw [BitVec.toNat_append, ← Nat.shiftLeft_add_eq_or_of_lt y.isLt, Nat.shiftLeft_eq]

/-- A command word as a number (30_encoding.md R70). -/
theorem commandWord_toNat (op w k : Nat) :
    (commandWord op w k).toNat = k % 64 * 4096 + (w % 256 * 16 + op % 16) := by
  unfold commandWord
  rw [toNat_append_add, toNat_append_add, toNat_append_add, toNat_append_add]
  simp only [BitVec.toNat_ofNat]
  omega

/-- The reserved bits of a command word are 0 (30_encoding.md R74, R75). -/
theorem bits_commandWord_reserved (op w k : Nat) : bits (commandWord op w k) 63 18 = 0 := by
  simp only [bits, commandWord_toNat]
  omega

/-- The `OP` field of a command word. -/
theorem bits_commandWord_op (op w k : Nat) : bits (commandWord op w k) 3 0 = op % 16 := by
  simp only [bits, commandWord_toNat]
  omega

/-- The `WIDTH` field of a command word. -/
theorem bits_commandWord_width (op w k : Nat) : bits (commandWord op w k) 11 4 = w % 256 := by
  simp only [bits, commandWord_toNat]
  omega

/-- The `KLEN` field of a command word. -/
theorem bits_commandWord_klen (op w k : Nat) : bits (commandWord op w k) 17 12 = k % 64 := by
  simp only [bits, commandWord_toNat]
  omega

/-- The 64-bit value from its four fields. -/
theorem toNat_eq_fields (c : Word) :
    c.toNat = bits c 63 18 * 2 ^ 18 + (bits c 17 12 * 4096 + (bits c 11 4 * 16 + bits c 3 0)) := by
  have := c.isLt
  simp only [bits]
  omega

/-- What it takes for a value to decode (30_encoding.md R77 to R79). -/
theorem decode_eq_ok_iff (c : Word) (i : Instr) :
    decode c = .ok i ↔ bits c 63 18 = 0 ∧ ∃ op, Opcode.ofNat? (bits c 3 0) = some op ∧
      (op.usesWidth = false → bits c 11 4 = 0) ∧ (op.usesKlen = false → bits c 17 12 = 0) ∧
      op.instr (bits c 11 4) (bits c 17 12) = i := by
  unfold decode
  by_cases hr : bits c 63 18 = 0
  · cases ho : Opcode.ofNat? (bits c 3 0) with
    | none => simp [hr]
    | some op =>
      by_cases hw : op.usesWidth = false ∧ bits c 11 4 ≠ 0
      · simp [hr, hw]
      · by_cases hk : op.usesKlen = false ∧ bits c 17 12 ≠ 0
        · simp [hr, hw, hk]
        · simp only [hr, hw, hk, ne_eq, not_true_eq_false, if_false, true_and,
            Except.ok.injEq, Option.some.injEq]
          push Not at hw hk
          exact ⟨fun h => ⟨op, rfl, hw, hk, h⟩, fun ⟨_, ho', _, _, h⟩ => ho' ▸ h⟩
  · simp [hr]

/-- A mask that keeps the bits below `a` and those from `b` up, as the opcode table's masks do. -/
theorem toNat_and_mask (c m : BitVec 32) {a b : Nat} (hab : a ≤ b)
    (hm : ∀ i < 32, m.getLsbD i = decide (i < a ∨ b ≤ i)) :
    (c &&& m).toNat = c.toNat % 2 ^ a + c.toNat / 2 ^ b * 2 ^ b := by
  have h : c &&& m = BitVec.ofNat 32 (c.toNat % 2 ^ a ||| (c.toNat / 2 ^ b) <<< b) := by
    apply BitVec.eq_of_getLsbD_eq
    intro i hi
    simp only [BitVec.getLsbD_and, hm i hi, BitVec.getLsbD_ofNat, Nat.testBit_or,
      Nat.testBit_mod_two_pow, Nat.testBit_shiftLeft, Nat.testBit_div_two_pow]
    by_cases h1 : i < a
    · simp [h1, hi, BitVec.getLsbD, show ¬ b ≤ i by omega]
    · by_cases h2 : b ≤ i <;> simp [h1, h2, hi, BitVec.getLsbD]
  have hlow : c.toNat % 2 ^ a < 2 ^ b :=
    lt_of_lt_of_le (Nat.mod_lt _ (by positivity)) (Nat.pow_le_pow_right (by decide) hab)
  have hle : c.toNat % 2 ^ a ≤ c.toNat % 2 ^ b := by
    rw [← Nat.mod_mod_of_dvd c.toNat (pow_dvd_pow 2 hab)]
    exact Nat.mod_le _ _
  have hdiv := Nat.div_add_mod' c.toNat (2 ^ b)
  have hc := c.isLt
  rw [h, Nat.or_comm, ← Nat.shiftLeft_add_eq_or_of_lt hlow, Nat.shiftLeft_eq, BitVec.toNat_ofNat,
    Nat.mod_eq_of_lt (by omega), Nat.add_comm]

end Sys2Proof
end

