-- ==== Sys2Proof/Laws/HostProgram.lean ====
section
/-! SUPPORT. The labels and variables that the expansion of `poll` uses are fresh (30_encoding.md R85). -/

namespace Sys2Proof.Machine

/-- `above` is above every number of the list. -/
theorem lt_above {x : Nat} {xs : List Nat} (h : x ∈ xs) : x < above xs := by
  induction xs with
  | nil => cases h
  | cons y ys ih =>
    rcases List.mem_cons.1 h with rfl | h
    · simp only [above]; omega
    · have := ih h; simp only [above]; omega

/-- No statement of the program names a label from `freshLabel` on. -/
theorem lt_freshLabel {prog : List HostSource} {src : HostSource} {l : Nat} (hs : src ∈ prog)
    (hl : l ∈ src.labels) : l < freshLabel prog :=
  lt_above (List.mem_flatMap.2 ⟨src, hs, hl⟩)

/-- No statement of the program names a variable from `freshVar` on. -/
theorem lt_freshVar {prog : List HostSource} {src : HostSource} {x : Nat} (hs : src ∈ prog)
    (hx : x ∈ src.vars) : x < freshVar prog :=
  lt_above (List.mem_flatMap.2 ⟨src, hs, hx⟩)

/-- A statement's expansion names a label that the statement does not name only where that is the
label given to its `poll`. -/
theorem expand_labels {l t k : Nat} {src : HostSource} {st : HostStmt} (h : st ∈ src.expand l t)
    (hk : k ∈ st.labels) : k ∈ src.labels ∨ k = l := by
  cases src <;> simp only [HostSource.expand, pollStmts, cmdStmt, List.mem_cons, List.not_mem_nil,
    or_false, List.mem_filterMap] at h
  case stmt => exact .inl (h ▸ hk)
  case wrkey =>
    obtain ⟨i, -, h⟩ := h
    split at h
    · cases h; cases hk
    · cases h
  all_goals
    right
    rcases h with rfl | rfl | rfl | rfl <;> simp_all [HostStmt.labels]

/-- The same of variables. -/
theorem expand_vars {l t x : Nat} {src : HostSource} {st : HostStmt} (h : st ∈ src.expand l t)
    (hx : x ∈ st.vars) : x ∈ src.vars ∨ x = t := by
  cases src <;> simp only [HostSource.expand, pollStmts, cmdStmt, List.mem_cons, List.not_mem_nil,
    or_false, List.mem_filterMap] at h
  case stmt => exact .inl (h ▸ hx)
  case wrkey =>
    obtain ⟨i, -, h⟩ := h
    split at h
    · cases h; cases hx
    · cases h
  all_goals
    right
    rcases h with rfl | rfl | rfl | rfl <;> simp_all [HostStmt.vars, Src.vars]

/-- Every statement of an expansion stands in the expansion of one written statement, with the label
and the variable of that statement's place. -/
theorem expandFrom_fresh {l t : Nat} {prog : List HostSource} {st : HostStmt}
    (h : st ∈ expandFrom l t prog) :
    ∃ i, ∃ hi : i < prog.length, st ∈ prog[i].expand (l + i) (t + i) := by
  induction prog generalizing l t with
  | nil => cases h
  | cons src rest ih =>
    rcases List.mem_append.1 h with h | h
    · exact ⟨0, by simp, by simpa using h⟩
    · obtain ⟨i, hi, h⟩ := ih h
      refine ⟨i + 1, by simpa using hi, ?_⟩
      rw [List.getElem_cons_succ, show l + (i + 1) = l + 1 + i by omega,
        show t + (i + 1) = t + 1 + i by omega]
      exact h

/-- Every statement of an expanded program comes from one written statement, and names beside that
statement's own labels and variables only the pair given to its `poll`, which no statement of the
program names (30_encoding.md R85). -/
theorem expandProgram_fresh {prog : List HostSource} {st : HostStmt}
    (h : st ∈ expandProgram prog) :
    ∃ i, ∃ hi : i < prog.length,
      (∀ k ∈ st.labels, k ∈ prog[i].labels ∨ k = freshLabel prog + i) ∧
      (∀ x ∈ st.vars, x ∈ prog[i].vars ∨ x = freshVar prog + i) := by
  obtain ⟨i, hi, h⟩ := expandFrom_fresh h
  exact ⟨i, hi, fun _ => expand_labels h, fun _ => expand_vars h⟩

end Sys2Proof.Machine
end

