-- ==== Sys2Proof/Laws/Operands.lean ====
section
/-! SUPPORT. One spec lemma per operand form. -/

namespace Sys2Proof.Machine

@[simp] theorem validAffWidth_iff (n : Nat) : validAffWidth n = true ↔ n ∈ [8, 16, 32, 64] := by
  simp [validAffWidth]

@[simp] theorem validFpeWidth_iff (n : Nat) : validFpeWidth n = true ↔ n ∈ [32, 64] := by
  simp [validFpeWidth]

@[simp] theorem validKeySize_iff (k : Nat) : validKeySize k = true ↔ k ∈ [16, 24, 32] := by
  simp [validKeySize]

@[simp] theorem odd_iff (s : Word) : odd s = true ↔ s.toNat % 2 = 1 := by
  simp [odd, bits]

@[simp] theorem inRange_iff (v : Word) (n : Nat) : inRange v n = true ↔ v.toNat < 2 ^ n := by
  simp [inRange]

/-- A result below `2^64` is kept whole (10_state.md R33). -/
theorem zext64_toNat {v : Nat} (h : v < 2 ^ 64) : (zext64 v).toNat = v := by
  simp only [zext64, BitVec.toNat_ofNat]
  exact Nat.mod_eq_of_lt h

theorem zext64_toNat_of_width {n v : Nat} (hn : n ≤ 64) (h : v < 2 ^ n) : (zext64 v).toNat = v :=
  zext64_toNat (lt_of_lt_of_le h (Nat.pow_le_pow_right (by decide) hn))

/-- Byte `k` of a string is eight bits of its register (20_memory.md R55). -/
theorem stringByte_toNat {m : Nat} (regs : Vector Word m) (k : Nat) (h : k / 8 < m) :
    (stringByte regs k).toNat = regs[k / 8].toNat / 2 ^ (8 * (k % 8)) % 256 := by
  simp only [stringByte, bits, BitVec.toNat_ofNat, Vector.getElem?_eq_getElem h, Option.getD_some]
  rw [show 8 * (k % 8) + 7 + 1 - 8 * (k % 8) = 8 by omega]
  simp

@[simp] theorem stringBytes_length {m : Nat} (regs : Vector Word m) (k : Nat) :
    (stringBytes regs k).length = k := by simp [stringBytes]

@[simp] theorem stringBytes_getElem {m : Nat} (regs : Vector Word m) (k j : Nat)
    (h : j < (stringBytes regs k).length) : (stringBytes regs k)[j] = stringByte regs j := by
  simp [stringBytes]

/-- A padded key holds the key's bytes, then zeros (43_fpe_scrambler.md R180). -/
theorem padKey_getElem (key : List Byte) (j : Nat) (h : j < 32) :
    (padKey key)[j] = key[j]?.getD 0 := by
  simp only [padKey, Vector.getElem_mk, List.getElem_toArray, List.getElem_take]
  rw [← Option.some_inj, ← List.getElem?_eq_getElem, List.getElem?_append]
  split
  · next hj => simp [List.getElem?_eq_getElem hj]
  · next hj =>
    rw [List.getElem?_eq_none (l := key) (by omega)]
    simp only [Option.getD_none, List.getElem?_replicate]
    rw [if_pos (by omega)]

theorem hexDigit_toNat (ld : Nat) (v : Word) (j : Nat) :
    (hexDigit ld v j).toNat = v.toNat / 2 ^ (4 * (ld - 1 - j)) % 16 := by
  simp only [hexDigit, bits, BitVec.toNat_ofNat]
  rw [show 4 * (ld - 1 - j) + 3 + 1 - 4 * (ld - 1 - j) = 4 by omega]
  simp

@[simp] theorem hexd_getElem (ld : Nat) (v : Word) (j : Nat) (h : j < ld) :
    (hexd ld v)[j] = hexDigit ld v j := by
  simp [hexd]

theorem digitsValue_lt (ds : List Digit) : digitsValue ds < 16 ^ ds.length := by
  induction ds with
  | nil => simp [digitsValue]
  | cons d ds ih =>
    have hd : d.toNat ≤ 15 := by have := d.isLt; omega
    have := Nat.mul_le_mul_right (16 ^ ds.length) hd
    simp only [digitsValue, List.length_cons, Nat.pow_succ]
    omega

theorem unhexd_lt {ld : Nat} (d : Vector Digit ld) : unhexd d < 16 ^ ld := by
  have := digitsValue_lt d.toList
  simpa [unhexd] using this

theorem bytesValue_lt (bs : List Byte) : bytesValue bs < 256 ^ bs.length := by
  induction bs with
  | nil => simp [bytesValue]
  | cons b bs ih =>
    have hb := b.isLt
    simp only [bytesValue, List.length_cons, Nat.pow_succ]
    omega

/-- Byte `k` of the packed bytes (20_memory.md R55). -/
theorem bytesValue_byte (bs : List Byte) (k : Nat) :
    bytesValue bs / 256 ^ k % 256 = (bs[k]?.getD 0).toNat := by
  induction bs generalizing k with
  | nil => simp [bytesValue]
  | cons b bs ih =>
    have hb := b.isLt
    cases k with
    | zero => simp [bytesValue]; omega
    | succ k =>
      have : bytesValue (b :: bs) / 256 ^ (k + 1) = bytesValue bs / 256 ^ k := by
        rw [Nat.pow_succ', ← Nat.div_div_eq_div_mul]
        congr 1
        simp only [bytesValue]
        omega
      rw [this, ih]
      simp

@[simp] theorem hexChars_length (ld : Nat) (v : Word) : (hexChars ld v).length = 16 := by
  simp [hexChars]

theorem hexChars_getElem (ld : Nat) (v : Word) (k : Nat) (h : k < (hexChars ld v).length) :
    (hexChars ld v)[k] = if k < ld then chr (hexDigit ld v k) else 0 := by
  simp [hexChars]

/-- A string parses one character at a time (42_fpe_integer_encoder.md R154). -/
theorem parseDigits_cons (b : Byte) (bs : List Byte) :
    parseDigits (b :: bs) = (ord b).bind fun d => (parseDigits bs).map (d :: ·) := by
  simp only [parseDigits]
  cases ord b <;> cases parseDigits bs <;> rfl

theorem parseDigits_length {bs : List Byte} {ds : List Digit} (h : parseDigits bs = some ds) :
    ds.length = bs.length := by
  induction bs generalizing ds with
  | nil => simp [parseDigits] at h; simp [← h]
  | cons b bs ih =>
    rw [parseDigits_cons] at h
    obtain ⟨d, -, h⟩ := Option.bind_eq_some_iff.mp h
    obtain ⟨ds', h', rfl⟩ := Option.map_eq_some_iff.mp h
    simp [ih h']

@[simp] theorem primConfig_maxLength (c : FpeCtx) : c.primConfig.maxLength = c.width.toNat / 4 := rfl

@[simp] theorem primConfig_key (c : FpeCtx) :
    c.primConfig.key = c.key.toList.take c.keylen.toNat := rfl

end Sys2Proof.Machine
end

