-- ==== Sys2Proof/Laws/State.lean ====
section
/-! SUPPORT. One lemma per field per update of the state, so that no proof unfolds an update. -/

namespace Sys2Proof.Machine

/-! ### `accept` -/

@[simp] theorem accept_cmd (c : Word) (s : State) : (accept c s).cmd = c := rfl
@[simp] theorem accept_status (c : Word) (s : State) : (accept c s).status = s.status.accepted := rfl
@[simp] theorem accept_opa (c : Word) (s : State) : (accept c s).opa = s.opa := rfl
@[simp] theorem accept_opaWr (c : Word) (s : State) : (accept c s).opaWr = s.opaWr := rfl
@[simp] theorem accept_res (c : Word) (s : State) : (accept c s).res = s.res := rfl
@[simp] theorem accept_key (c : Word) (s : State) : (accept c s).key = s.key := rfl
@[simp] theorem accept_keyWr (c : Word) (s : State) : (accept c s).keyWr = s.keyWr := rfl
@[simp] theorem accept_hex (c : Word) (s : State) : (accept c s).hex = s.hex := rfl
@[simp] theorem accept_hexWr (c : Word) (s : State) : (accept c s).hexWr = s.hexWr := rfl
@[simp] theorem accept_phase (c : Word) (s : State) : (accept c s).phase = .exec := rfl
@[simp] theorem accept_latch (c : Word) (s : State) : (accept c s).latch = latchOf c s := rfl
@[simp] theorem accept_affCtx (c : Word) (s : State) : (accept c s).affCtx = s.affCtx := rfl
@[simp] theorem accept_fpeCtx (c : Word) (s : State) : (accept c s).fpeCtx = s.fpeCtx := rfl
@[simp] theorem accept_preq (c : Word) (s : State) : (accept c s).preq = s.preq := rfl
@[simp] theorem accept_host (c : Word) (s : State) : (accept c s).host = s.host := rfl
@[simp] theorem accept_sched (c : Word) (s : State) : (accept c s).sched = s.sched := rfl
@[simp] theorem accept_freeCount (c : Word) (s : State) : (accept c s).freeCount = s.freeCount := rfl

/-! ### `complete` -/

@[simp] theorem complete_cmd (code : ErrCode) (s : State) : (complete code s).cmd = s.cmd := rfl
@[simp] theorem complete_status (code : ErrCode) (s : State) : (complete code s).status = s.status.completed code := rfl
@[simp] theorem complete_opa (code : ErrCode) (s : State) : (complete code s).opa = s.opa := rfl
@[simp] theorem complete_opaWr (code : ErrCode) (s : State) : (complete code s).opaWr = s.opaWr := rfl
@[simp] theorem complete_res (code : ErrCode) (s : State) : (complete code s).res = s.res := rfl
@[simp] theorem complete_key (code : ErrCode) (s : State) : (complete code s).key = s.key := rfl
@[simp] theorem complete_keyWr (code : ErrCode) (s : State) : (complete code s).keyWr = s.keyWr := rfl
@[simp] theorem complete_hex (code : ErrCode) (s : State) : (complete code s).hex = s.hex := rfl
@[simp] theorem complete_hexWr (code : ErrCode) (s : State) : (complete code s).hexWr = s.hexWr := rfl
@[simp] theorem complete_phase (code : ErrCode) (s : State) : (complete code s).phase = .idle := rfl
@[simp] theorem complete_latch (code : ErrCode) (s : State) : (complete code s).latch = Config.freeLatch s.freeCount := rfl
@[simp] theorem complete_affCtx (code : ErrCode) (s : State) : (complete code s).affCtx = s.affCtx := rfl
@[simp] theorem complete_fpeCtx (code : ErrCode) (s : State) : (complete code s).fpeCtx = s.fpeCtx := rfl
@[simp] theorem complete_preq (code : ErrCode) (s : State) : (complete code s).preq = s.preq := rfl
@[simp] theorem complete_host (code : ErrCode) (s : State) : (complete code s).host = s.host := rfl
@[simp] theorem complete_sched (code : ErrCode) (s : State) : (complete code s).sched = s.sched := rfl
@[simp] theorem complete_freeCount (code : ErrCode) (s : State) : (complete code s).freeCount = s.freeCount + 1 := rfl

/-! ### `startPrim` -/

@[simp] theorem startPrim_cmd (r : PrimReq) (s : State) : (startPrim r s).cmd = s.cmd := rfl
@[simp] theorem startPrim_status (r : PrimReq) (s : State) : (startPrim r s).status = s.status := rfl
@[simp] theorem startPrim_opa (r : PrimReq) (s : State) : (startPrim r s).opa = s.opa := rfl
@[simp] theorem startPrim_opaWr (r : PrimReq) (s : State) : (startPrim r s).opaWr = s.opaWr := rfl
@[simp] theorem startPrim_res (r : PrimReq) (s : State) : (startPrim r s).res = s.res := rfl
@[simp] theorem startPrim_key (r : PrimReq) (s : State) : (startPrim r s).key = s.key := rfl
@[simp] theorem startPrim_keyWr (r : PrimReq) (s : State) : (startPrim r s).keyWr = s.keyWr := rfl
@[simp] theorem startPrim_hex (r : PrimReq) (s : State) : (startPrim r s).hex = s.hex := rfl
@[simp] theorem startPrim_hexWr (r : PrimReq) (s : State) : (startPrim r s).hexWr = s.hexWr := rfl
@[simp] theorem startPrim_phase (r : PrimReq) (s : State) : (startPrim r s).phase = .waitPrim := rfl
@[simp] theorem startPrim_latch (r : PrimReq) (s : State) : (startPrim r s).latch = s.latch := rfl
@[simp] theorem startPrim_affCtx (r : PrimReq) (s : State) : (startPrim r s).affCtx = s.affCtx := rfl
@[simp] theorem startPrim_fpeCtx (r : PrimReq) (s : State) : (startPrim r s).fpeCtx = s.fpeCtx := rfl
@[simp] theorem startPrim_preq (r : PrimReq) (s : State) : (startPrim r s).preq = some r := rfl
@[simp] theorem startPrim_host (r : PrimReq) (s : State) : (startPrim r s).host = s.host := rfl
@[simp] theorem startPrim_sched (r : PrimReq) (s : State) : (startPrim r s).sched = s.sched := rfl
@[simp] theorem startPrim_freeCount (r : PrimReq) (s : State) : (startPrim r s).freeCount = s.freeCount := rfl

/-! ### `resetUnit` -/

@[simp] theorem resetUnit_cmd (s : State) : (resetUnit s).cmd = State.reset.cmd := rfl
@[simp] theorem resetUnit_status (s : State) : (resetUnit s).status = State.reset.status := rfl
@[simp] theorem resetUnit_opa (s : State) : (resetUnit s).opa = State.reset.opa := rfl
@[simp] theorem resetUnit_opaWr (s : State) : (resetUnit s).opaWr = State.reset.opaWr := rfl
@[simp] theorem resetUnit_res (s : State) : (resetUnit s).res = State.reset.res := rfl
@[simp] theorem resetUnit_key (s : State) : (resetUnit s).key = State.reset.key := rfl
@[simp] theorem resetUnit_keyWr (s : State) : (resetUnit s).keyWr = State.reset.keyWr := rfl
@[simp] theorem resetUnit_hex (s : State) : (resetUnit s).hex = State.reset.hex := rfl
@[simp] theorem resetUnit_hexWr (s : State) : (resetUnit s).hexWr = State.reset.hexWr := rfl
@[simp] theorem resetUnit_phase (s : State) : (resetUnit s).phase = State.reset.phase := rfl
@[simp] theorem resetUnit_latch (s : State) : (resetUnit s).latch = Config.freeLatch s.freeCount := rfl
@[simp] theorem resetUnit_affCtx (s : State) : (resetUnit s).affCtx = State.reset.affCtx := rfl
@[simp] theorem resetUnit_fpeCtx (s : State) : (resetUnit s).fpeCtx = State.reset.fpeCtx := rfl
@[simp] theorem resetUnit_preq (s : State) : (resetUnit s).preq = State.reset.preq := rfl
@[simp] theorem resetUnit_host (s : State) : (resetUnit s).host = s.host := rfl
@[simp] theorem resetUnit_sched (s : State) : (resetUnit s).sched = s.sched := rfl
@[simp] theorem resetUnit_freeCount (s : State) : (resetUnit s).freeCount = s.freeCount + 1 := rfl

/-! ### `STATUS` -/

@[simp] theorem Status.accepted_busy (st : Status) : (st.accepted).busy = true := rfl
@[simp] theorem Status.accepted_done (st : Status) : (st.accepted).done = false := rfl
@[simp] theorem Status.accepted_err (st : Status) : (st.accepted).err = false := rfl
@[simp] theorem Status.accepted_ovr (st : Status) : (st.accepted).ovr = false := rfl
@[simp] theorem Status.accepted_errCode (st : Status) : (st.accepted).errCode = .none := rfl
@[simp] theorem Status.completed_busy (code : ErrCode) (st : Status) : (st.completed code).busy = false := rfl
@[simp] theorem Status.completed_done (code : ErrCode) (st : Status) : (st.completed code).done = true := rfl
@[simp] theorem Status.completed_err (code : ErrCode) (st : Status) : (st.completed code).err = decide (code ≠ .none) := rfl
@[simp] theorem Status.completed_ovr (code : ErrCode) (st : Status) : (st.completed code).ovr = st.ovr := rfl
@[simp] theorem Status.completed_errCode (code : ErrCode) (st : Status) : (st.completed code).errCode = code := rfl
@[simp] theorem Status.overrun_busy (st : Status) : (st.overrun).busy = st.busy := rfl
@[simp] theorem Status.overrun_done (st : Status) : (st.overrun).done = st.done := rfl
@[simp] theorem Status.overrun_err (st : Status) : (st.overrun).err = st.err := rfl
@[simp] theorem Status.overrun_ovr (st : Status) : (st.overrun).ovr = true := rfl
@[simp] theorem Status.overrun_errCode (st : Status) : (st.overrun).errCode = st.errCode := rfl

end Sys2Proof.Machine
end

