-- ==== Sys2Proof/Laws/Ops.lean ====
section
/-! SUPPORT. One spec lemma per shared operation: what it answers and what it leaves alone. -/

namespace Sys2Proof.Machine

/-! ### The register window -/

/-- A register stands at its own offset only (20_memory.md R52). -/
theorem Reg.offset_of_at? {off : Nat} {r : Reg} (h : Reg.at? off = some r) : off = r.offset := by
  unfold Reg.at? at h
  split at h <;> cases h <;> rfl

theorem Reg.at?_offset (r : Reg) : Reg.at? r.offset = some r := by
  cases r with
  | cmd => rfl
  | status => rfl
  | opa => rfl
  | res => rfl
  | key i => revert i; decide
  | hex i => revert i; decide

/-- A window read depends on the register at its offset alone. -/
theorem busRead_congr {off : Nat} {s t : State}
    (h : ∀ r, Reg.at? off = some r → readReg r t = readReg r s) : busRead off t = busRead off s := by
  unfold busRead
  split
  · next r hr => rw [h r hr]
  · rfl

/-- What a host write can do to the unit (20_memory.md R54; 60_exceptions.md R200; 70_reset_and_hazards.md
R240). -/
theorem writeReg_cases (r : Reg) (v : Word) (s : State) :
    writeReg r v s = s ∨
    (s.phase = .idle ∧ writeReg r v s = accept v s) ∨
    (s.phase ≠ .idle ∧ writeReg r v s = { s with status := s.status.overrun }) ∨
    writeReg r v s = { s with opa := v, opaWr := true } ∨
    (∃ i : Fin 4, writeReg r v s = { s with key := s.key.set i v, keyWr := s.keyWr.set i true }) ∨
    (∃ i : Fin 2, writeReg r v s = { s with hex := s.hex.set i v, hexWr := s.hexWr.set i true }) := by
  cases r with
  | cmd =>
    by_cases h : s.phase = .idle
    · exact .inr (.inl ⟨h, by simp [writeReg, writeCmd, h]⟩)
    · exact .inr (.inr (.inl ⟨h, by simp [writeReg, writeCmd, h]⟩))
  | status => exact .inl rfl
  | opa => exact .inr (.inr (.inr (.inl rfl)))
  | res => exact .inl rfl
  | key i => exact .inr (.inr (.inr (.inr (.inl ⟨i, rfl⟩))))
  | hex i => exact .inr (.inr (.inr (.inr (.inr ⟨i, rfl⟩))))

theorem busWrite_cases (off : Nat) (v : Word) (s : State) :
    busWrite off v s = s ∨
    (s.phase = .idle ∧ busWrite off v s = accept v s) ∨
    (s.phase ≠ .idle ∧ busWrite off v s = { s with status := s.status.overrun }) ∨
    busWrite off v s = { s with opa := v, opaWr := true } ∨
    (∃ i : Fin 4, busWrite off v s = { s with key := s.key.set i v, keyWr := s.keyWr.set i true }) ∨
    (∃ i : Fin 2, busWrite off v s = { s with hex := s.hex.set i v, hexWr := s.hexWr.set i true }) := by
  unfold busWrite
  split
  · exact writeReg_cases _ v s
  · exact .inl rfl

@[simp] theorem busWrite_cmd (v : Word) (s : State) : busWrite 0x00 v s = writeCmd v s := rfl

@[simp] theorem busWrite_opa (v : Word) (s : State) :
    busWrite 0x10 v s = { s with opa := v, opaWr := true } := rfl

theorem writeCmd_idle {s : State} (h : s.phase = .idle) (v : Word) : writeCmd v s = accept v s := by
  simp [writeCmd, h]

theorem writeCmd_busy {s : State} (h : s.phase ≠ .idle) (v : Word) :
    writeCmd v s = { s with status := s.status.overrun } := by
  simp [writeCmd, h]

/-- An access goes through exactly when it is an aligned 64-bit one in the window (20_memory.md R51,
R53). -/
theorem access_eq_next_iff (l : Loc) (f : Nat → Out) (t : State) :
    access l f = .next t ↔ ∃ off, l.place Config.unitBase = some (off, 8) ∧ off < unitSize ∧
      off % 8 = 0 ∧ f off = .next t := by
  unfold access
  cases hp : l.place Config.unitBase with
  | none => simp
  | some x =>
    obtain ⟨off, bytes⟩ := x
    by_cases h1 : unitSize ≤ off
    · simp only [h1, if_true, Option.some.injEq, Prod.mk.injEq]
      exact ⟨fun h => (by cases h), fun ⟨o, ⟨ho, _⟩, h, _⟩ => absurd h (by omega)⟩
    · by_cases h2 : bytes = 8 ∧ off % 8 = 0
      · simp only [h1, h2, if_false, and_self, if_true, Option.some.injEq, Prod.mk.injEq]
        exact ⟨fun h => ⟨off, ⟨rfl, trivial⟩, by omega, h2.2, h⟩,
          fun ⟨o, ⟨ho, _⟩, _, _, h⟩ => ho ▸ h⟩
      · simp only [h1, h2, if_false, Option.some.injEq, Prod.mk.injEq]
        exact ⟨fun h => (by cases h),
          fun ⟨o, ⟨ho, hb⟩, _, ha, _⟩ => absurd ⟨hb, ho ▸ ha⟩ h2⟩

/-! ### Completion -/

theorem completed_complete (code : ErrCode) (s : State) : Completed code (complete code s) :=
  ⟨rfl, rfl, rfl, by simp, rfl⟩

/-- A completion changes no window read but that of `STATUS` and of what the command wrote. -/
theorem busRead_complete {code : ErrCode} {s s' : State} {w : Writes} (hcmd : s'.cmd = s.cmd)
    (hopa : s'.opa = s.opa) (hres : w.res = false → s'.res = s.res)
    (hhex : w.hex = false → s'.hex = s.hex) (off : Nat) (h : off ∉ w.offsets) :
    busRead off (complete code s') = busRead off s := by
  apply busRead_congr
  intro r hr
  have ho := Reg.offset_of_at? hr
  cases r with
  | cmd => simpa [readReg] using hcmd
  | status => exact absurd (by simp [ho, Reg.offset, Writes.offsets]) h
  | opa => simpa [readReg] using hopa
  | res =>
    cases hw : w.res with
    | true => exact absurd (by simp [ho, Reg.offset, Writes.offsets, hw]) h
    | false => simpa [readReg] using hres hw
  | key i => rfl
  | hex i =>
    cases hw : w.hex with
    | true =>
      refine absurd ?_ h
      have : i = 0 ∨ i = 1 := by omega
      rcases this with rfl | rfl <;> simp [ho, Reg.offset, Writes.offsets, hw]
    | false => simp [readReg, hhex hw]

/-- The frame of a completion that writes what `w` names (60_exceptions.md R204). -/
theorem frame_complete {code : ErrCode} {s s' : State} {w : Writes} (hcmd : s'.cmd = s.cmd)
    (hovr : s'.status.ovr = s.status.ovr) (hopa : s'.opa = s.opa ∧ s'.opaWr = s.opaWr)
    (hres : w.res = false → s'.res = s.res)
    (hkey : w.key = false → s'.key = s.key ∧ s'.keyWr = s.keyWr)
    (hhex : w.hex = false → s'.hex = s.hex ∧ s'.hexWr = s.hexWr)
    (haff : w.aff = false → s'.affCtx = s.affCtx) (hfpe : w.fpe = false → s'.fpeCtx = s.fpeCtx)
    (hpreq : s'.preq = s.preq) (hhost : s'.host = s.host) (hsched : s'.sched = s.sched) :
    Frame w s (complete code s') :=
  ⟨hcmd, hovr, hopa, hres, hkey, hhex, haff, hfpe, hpreq, hhost, hsched,
    busRead_complete hcmd hopa.1 hres fun h => (hhex h).1⟩

theorem frame_complete_self (code : ErrCode) (s : State) : Frame {} s (complete code s) := by
  apply frame_complete <;> simp

theorem frame_complete_res (code : ErrCode) (s : State) (v : Word) :
    Frame { res := true } s (complete code { s with res := v }) := by
  apply frame_complete <;> simp

theorem frame_complete_hex (code : ErrCode) (s : State) (v : Vector Word 2) (f : Vector Bool 2) :
    Frame { hex := true } s (complete code { s with hex := v, hexWr := f }) := by
  apply frame_complete <;> simp

theorem frame_complete_aff (code : ErrCode) (s : State) (c : AffCtx) :
    Frame { aff := true } s (complete code { s with affCtx := c }) := by
  apply frame_complete <;> simp

theorem frame_complete_fpe (code : ErrCode) (s : State) (c : FpeCtx) :
    Frame { fpe := true } s (complete code { s with fpeCtx := c }) := by
  apply frame_complete <;> simp

theorem frame_complete_fpe_key (code : ErrCode) (s : State) (c : FpeCtx) (k : Vector Word 4)
    (f : Vector Bool 4) :
    Frame { key := true, fpe := true } s
      (complete code { s with fpeCtx := c, key := k, keyWr := f }) := by
  apply frame_complete <;> simp

/-! ### The primitive port -/

/-- What an answer can do (43_fpe_scrambler.md R174). -/
theorem takeAnswer_cases {r : PrimReq} {a : PrimResult r.ld} {s t : State}
    (h : takeAnswer r a s = .next t) :
    (∃ c, a = .ok c ∧ t = complete .none { s with preq := none, res := zext64 (unhexd c) }) ∨
    (a = .reject ∧ t = complete .encodingError { s with preq := none }) ∨
    (a = .fail ∧ t = complete (failCode r.dir) { s with preq := none }) := by
  cases a with
  | ok c => cases h; exact .inl ⟨c, rfl, rfl⟩
  | reject => cases h; exact .inr (.inl ⟨rfl, rfl⟩)
  | fail => cases h; exact .inr (.inr ⟨rfl, rfl⟩)

/-! ### The host's variables -/

theorem varsAbove_varSet {x y : Nat} {v : Word} {vars : List (Nat × Word)} (hx : y < x)
    (h : varsAbove y vars = true) : varsAbove y (varSet x v vars) = true := by
  induction vars with
  | nil => unfold varSet; split <;> simp [varsAbove, hx]
  | cons p rest ih =>
    obtain ⟨z, w⟩ := p
    simp only [varsAbove, List.all_cons, Bool.and_eq_true, decide_eq_true_eq] at h
    unfold varSet
    split
    · split <;> simp [varsAbove, h, hx]
    · split
      · split
        · simpa [varsAbove] using h.2
        · simp [varsAbove, hx, h]
      · simpa [varsAbove, h.1] using ih h.2

theorem varsAbove_mono {x y : Nat} {vars : List (Nat × Word)} (hxy : x ≤ y)
    (h : varsAbove y vars = true) : varsAbove x vars = true := by
  simp only [varsAbove, List.all_eq_true, decide_eq_true_eq] at *
  exact fun p hp => lt_of_le_of_lt hxy (h p hp)

/-- Setting a variable keeps the canonical form (assumption 9). -/
theorem varSet_wf (x : Nat) (v : Word) {vars : List (Nat × Word)} (h : varsWf vars = true) :
    varsWf (varSet x v vars) = true := by
  induction vars with
  | nil => unfold varSet; split <;> simp_all [varsWf, varsAbove]
  | cons p rest ih =>
    obtain ⟨y, w⟩ := p
    have h' := h
    simp only [varsWf, Bool.and_eq_true, decide_eq_true_eq] at h
    have hcons : ∀ {z : Nat} {u : Word} {l}, u ≠ 0 → varsAbove z l = true → varsWf l = true →
        varsWf ((z, u) :: l) = true := fun hu ha hl => by simpa [varsWf, ha, hl] using hu
    unfold varSet
    split
    · next hxy =>
      split
      · exact h'
      · next hv =>
        refine hcons hv ?_ h'
        simpa [varsAbove, hxy] using varsAbove_mono (le_of_lt hxy) h.1.2
    · next hxy =>
      split
      · next heq =>
        split
        · exact h.2
        · next hv => exact hcons hv (heq ▸ h.1.2) h.2
      · exact hcons h.1.1 (varsAbove_varSet (by omega) h.1.2) (ih h.2)

theorem varGet_of_above {x : Nat} {vars : List (Nat × Word)} (h : varsAbove x vars = true) :
    varGet x vars = 0 := by
  induction vars with
  | nil => rfl
  | cons p rest ih =>
    obtain ⟨y, w⟩ := p
    simp only [varsAbove, List.all_cons, Bool.and_eq_true, decide_eq_true_eq] at h
    simp [varGet, show x ≠ y by omega, ih h.2]

/-- A variable reads what was last stored in it, and every other reads as before. -/
theorem varGet_varSet (x y : Nat) (v : Word) {vars : List (Nat × Word)} (h : varsWf vars = true) :
    varGet y (varSet x v vars) = if y = x then v else varGet y vars := by
  induction vars with
  | nil => unfold varSet; split <;> simp_all [varGet]
  | cons p rest ih =>
    obtain ⟨z, w⟩ := p
    simp only [varsWf, Bool.and_eq_true, decide_eq_true_eq] at h
    have habove : ∀ {u}, u ≤ z → varGet u rest = 0 :=
      fun hu => varGet_of_above (varsAbove_mono hu h.1.2)
    unfold varSet
    split
    · next hxz =>
      split
      · next hv =>
        by_cases hy : y = x
        · subst hy; simp [varGet, show y ≠ z by omega, habove (le_of_lt hxz), hv]
        · simp [hy]
      · simp [varGet]
    · split
      · next hxz =>
        subst hxz
        split
        · next hv =>
          by_cases hy : y = x
          · subst hy; simp [habove (le_refl _), hv]
          · simp [varGet, hy]
        · by_cases hy : y = x <;> simp [varGet, hy]
      · by_cases hy : y = z
        · subst hy
          next h1 h2 => simp [varGet, show y ≠ x by omega]
        · simp [varGet, hy, ih h.2]

end Sys2Proof.Machine

namespace Sys2Proof

/-- P-TOT and no `FAIL` together say that `enc` always answers `OK` (43_fpe_scrambler.md R173, R187). -/
theorem FpePrim.alwaysOk_iff (p : FpePrim) :
    p.AlwaysOk ↔ p.EncNeverRejects ∧ p.EncNeverFails := by
  constructor
  · intro h
    constructor <;> intro key ld d hk hl he <;> obtain ⟨c, hc⟩ := h key ld d hk hl <;>
      simp [hc] at he
  · rintro ⟨hr, hf⟩ key ld d hk hl
    cases he : p.enc key ld d with
    | ok c => exact ⟨c, rfl⟩
    | reject => exact absurd he (hr key ld d hk hl)
    | fail => exact absurd he (hf key ld d hk hl)

end Sys2Proof
end

