-- ==== Sys2Proof/Laws/PerInstr.lean ====
section
/-! SUPPORT. A statement about every command, made per constructor: the command word keeps the reserved
bits 0, whatever its fields hold (30_encoding.md R74, R75). -/

namespace Sys2Proof

/-- The word of the command keeps `RSVD` and `CMD[63:32]` at 0. -/
def Laws.ReservedBitsZero.Statement (i : Instr) : Prop := bits (encode i) 63 18 = 0

open Laws.ReservedBitsZero in
theorem Laws.ReservedBitsZero.nop : Statement .nop := bits_commandWord_reserved _ _ _

open Laws.ReservedBitsZero in
theorem Laws.ReservedBitsZero.inv (n : Nat) : Statement (.inv n) := bits_commandWord_reserved _ _ _

open Laws.ReservedBitsZero in
theorem Laws.ReservedBitsZero.affLoad (n : Nat) : Statement (.affLoad n) := bits_commandWord_reserved _ _ _

open Laws.ReservedBitsZero in
theorem Laws.ReservedBitsZero.affScr : Statement .affScr := bits_commandWord_reserved _ _ _

open Laws.ReservedBitsZero in
theorem Laws.ReservedBitsZero.affUnscr : Statement .affUnscr := bits_commandWord_reserved _ _ _

open Laws.ReservedBitsZero in
theorem Laws.ReservedBitsZero.affClear : Statement .affClear := bits_commandWord_reserved _ _ _

open Laws.ReservedBitsZero in
theorem Laws.ReservedBitsZero.hexEnc (n : Nat) : Statement (.hexEnc n) := bits_commandWord_reserved _ _ _

open Laws.ReservedBitsZero in
theorem Laws.ReservedBitsZero.hexDec (n : Nat) : Statement (.hexDec n) := bits_commandWord_reserved _ _ _

open Laws.ReservedBitsZero in
theorem Laws.ReservedBitsZero.fpeLoad (n k : Nat) : Statement (.fpeLoad n k) := bits_commandWord_reserved _ _ _

open Laws.ReservedBitsZero in
theorem Laws.ReservedBitsZero.fpeScr : Statement .fpeScr := bits_commandWord_reserved _ _ _

open Laws.ReservedBitsZero in
theorem Laws.ReservedBitsZero.fpeUnscr : Statement .fpeUnscr := bits_commandWord_reserved _ _ _

open Laws.ReservedBitsZero in
theorem Laws.ReservedBitsZero.fpeClear : Statement .fpeClear := bits_commandWord_reserved _ _ _

end Sys2Proof
end

