-- ==== Sys2Proof/Laws/Step.lean ====
section
/-! SUPPORT. What a command, a move and a step can do: the inversion lemmas every invariant is derived
from. -/

namespace Sys2Proof.Machine

/-- The command a primitive direction belongs to (43_fpe_scrambler.md R182, R185). -/
def Dir.command : Dir → Instr
  | .enc => .fpeScr
  | .dec => .fpeUnscr

/-! ### The checks of each command -/

theorem affScramble_cases {s t : State} (h : affScramble s = .next t) :
    (∃ code, code ≠ .none ∧ t = complete code s) ∨
    (s.affCtx.valid = true ∧ s.latch.opaWr = true ∧
      inRange s.latch.opa s.affCtx.width.toNat = true ∧
      t = complete .none { s with res := s.affCtx.map s.latch.opa }) := by
  unfold affScramble at h
  split at h
  · cases h; exact .inl ⟨.noContext, by decide, rfl⟩
  · split at h
    · cases h; exact .inl ⟨.nullOperand, by decide, rfl⟩
    · split at h
      · cases h; exact .inl ⟨.operandRange, by decide, rfl⟩
      · cases h; simp_all

theorem fpeCall_cases {dir : Dir} {s t : State} (h : fpeCall dir s = .next t) :
    (∃ code, code ≠ .none ∧ t = complete code s) ∨
    (s.fpeCtx.valid = true ∧ s.latch.opaWr = true ∧
      inRange s.latch.opa s.fpeCtx.width.toNat = true ∧
      t = startPrim (primRequest dir s.fpeCtx s.latch.opa) s) := by
  unfold fpeCall at h
  split at h
  · cases h; exact .inl ⟨.noContext, by decide, rfl⟩
  · split at h
    · cases h; exact .inl ⟨.nullOperand, by decide, rfl⟩
    · split at h
      · cases h; exact .inl ⟨.operandRange, by decide, rfl⟩
      · cases h; simp_all

/-- What a command can do, over all commands: it completes with an error and changes nothing else; or,
its checks passed, it completes with its own writes; or it calls the primitive. -/
theorem exec_cases {i : Instr} {s t : State} (h : exec i s = .next t) :
    (∃ code, code ≠ .none ∧ t = complete code s) ∨
    (i = .nop ∧ t = complete .none s) ∨
    (∃ n, i = .inv n ∧ validAffWidth n = true ∧ s.latch.opaWr = true ∧
      inRange s.latch.opa n = true ∧ odd s.latch.opa = true ∧
      t = complete .none { s with res := zext64 (invN n s.latch.opa.toNat) }) ∨
    (∃ n, i = .affLoad n ∧ validAffWidth n = true ∧ s.latch.opaWr = true ∧
      inRange s.latch.opa n = true ∧ odd s.latch.opa = true ∧ s.latch.opa ≠ 1 ∧
      t = complete .none { s with affCtx := AffCtx.ofSalt n s.latch.opa }) ∨
    ((i = .affScr ∨ i = .affUnscr) ∧ s.affCtx.valid = true ∧ s.latch.opaWr = true ∧
      inRange s.latch.opa s.affCtx.width.toNat = true ∧
      t = complete .none { s with res := s.affCtx.map s.latch.opa }) ∨
    (i = .affClear ∧ t = complete .none { s with affCtx := AffCtx.cleared }) ∨
    (∃ n, i = .hexEnc n ∧ validFpeWidth n = true ∧ s.latch.opaWr = true ∧
      inRange s.latch.opa n = true ∧ t = complete .none { s with
        hex := hexRegs (digitCount n) s.latch.opa, hexWr := #v[true, true] }) ∨
    (∃ n ds, i = .hexDec n ∧ validFpeWidth n = true ∧ s.latch.hexWr[0] = true ∧
      (n = 64 → s.latch.hexWr[1] = true) ∧
      parseDigits (stringBytes s.latch.hex (digitCount n)) = some ds ∧
      t = complete .none { s with res := zext64 (digitsValue ds) }) ∨
    (∃ n k, i = .fpeLoad n k ∧ validFpeWidth n = true ∧ validKeySize k = true ∧
      keyWritten k s.latch = true ∧
      t = complete .none { s with fpeCtx := FpeCtx.ofKey n k s.latch.key }) ∨
    (∃ dir : Dir, i = dir.command ∧ s.fpeCtx.valid = true ∧ s.latch.opaWr = true ∧
      inRange s.latch.opa s.fpeCtx.width.toNat = true ∧
      t = startPrim (primRequest dir s.fpeCtx s.latch.opa) s) ∨
    (i = .fpeClear ∧ t = complete .none { s with
      fpeCtx := FpeCtx.cleared
      key := Vector.replicate 4 0
      keyWr := Vector.replicate 4 false }) := by
  cases i with
  | nop => cases h; simp
  | inv n =>
    simp only [exec, execInv, raise, succeed] at h
    split at h
    · cases h; exact .inl ⟨.invalidWidth, by decide, rfl⟩
    · split at h
      · cases h; exact .inl ⟨.nullOperand, by decide, rfl⟩
      · split at h
        · cases h; exact .inl ⟨.operandRange, by decide, rfl⟩
        · split at h
          · cases h; exact .inl ⟨.notOdd, by decide, rfl⟩
          · cases h; simp_all
  | affLoad n =>
    simp only [exec, execAffLoad, raise, succeed] at h
    split at h
    · cases h; exact .inl ⟨.invalidWidth, by decide, rfl⟩
    · split at h
      · cases h; exact .inl ⟨.nullOperand, by decide, rfl⟩
      · split at h
        · cases h; exact .inl ⟨.operandRange, by decide, rfl⟩
        · split at h
          · cases h; exact .inl ⟨.notOdd, by decide, rfl⟩
          · cases h; simp_all
  | affScr =>
    rcases affScramble_cases h with h | h
    · exact .inl h
    · simp [h]
  | affUnscr =>
    rcases affScramble_cases h with h | h
    · exact .inl h
    · simp [h]
  | affClear => cases h; simp
  | hexEnc n =>
    simp only [exec, execHexEnc, raise, succeed] at h
    split at h
    · cases h; exact .inl ⟨.invalidWidth, by decide, rfl⟩
    · split at h
      · cases h; exact .inl ⟨.nullOperand, by decide, rfl⟩
      · split at h
        · cases h; exact .inl ⟨.operandRange, by decide, rfl⟩
        · cases h; simp_all
  | hexDec n =>
    simp only [exec, execHexDec, raise, succeed] at h
    split at h
    · cases h; exact .inl ⟨.invalidWidth, by decide, rfl⟩
    · split at h
      · cases h; exact .inl ⟨.nullOperand, by decide, rfl⟩
      · split at h
        · cases h; exact .inl ⟨.nullOperand, by decide, rfl⟩
        · split at h
          · cases h; exact .inl ⟨.encodingError, by decide, rfl⟩
          · cases h; simp_all
  | fpeLoad n k =>
    simp only [exec, execFpeLoad, raise, succeed] at h
    split at h
    · cases h; exact .inl ⟨.invalidWidth, by decide, rfl⟩
    · split at h
      · cases h; exact .inl ⟨.invalidKeySize, by decide, rfl⟩
      · split at h
        · cases h; exact .inl ⟨.nullOperand, by decide, rfl⟩
        · cases h; simp_all
  | fpeScr =>
    rcases fpeCall_cases h with h | h
    · exact .inl h
    · exact .inr (.inr (.inr (.inr (.inr (.inr (.inr (.inr (.inr (.inl ⟨.enc, rfl, h⟩)))))))))
  | fpeUnscr =>
    rcases fpeCall_cases h with h | h
    · exact .inl h
    · exact .inr (.inr (.inr (.inr (.inr (.inr (.inr (.inr (.inr (.inl ⟨.dec, rfl, h⟩)))))))))
  | fpeClear => cases h; simp

/-! ### The moves -/

/-- The unit's move (60_exceptions.md R201, R206). -/
theorem unitStep_cases {s t : State} (h : unitStep s = .next t) :
    (s.phase ≠ .exec ∧ t = s) ∨
    (s.phase = .exec ∧ ∃ i, decode s.latch.cmd = .ok i ∧ exec i s = .next t) ∨
    (s.phase = .exec ∧ (∃ e, decode s.latch.cmd = .error e) ∧ t = complete .illegalCommand s) := by
  unfold unitStep at h
  split at h
  · next hp =>
    split at h
    · next i hi => exact .inr (.inl ⟨hp, i, hi, h⟩)
    · next e he => cases h; exact .inr (.inr ⟨hp, ⟨e, he⟩, rfl⟩)
  · next hp => cases h; simp [hp]
  · next hp => cases h; simp [hp]

/-- The primitive's move (60_exceptions.md R205). -/
theorem primStep_cases {p : FpePrim} {s t : State} (h : primStep p s = .next t) :
    t = s ∨ ∃ r, s.phase = .waitPrim ∧ s.preq = some r ∧
      takeAnswer r (primResult p r) s = .next t := by
  unfold primStep at h
  split at h
  · next r hp hr => exact .inr ⟨r, hp, hr, h⟩
  · cases h; exact .inl rfl
  · cases h; exact .inl rfl
  · cases h; exact .inl rfl

/-- The host's move: a write, a read into a variable, or a step inside its program (30_encoding.md
R84). -/
theorem hostStep_cases {s t : State} (h : hostStep s = .next t) :
    t = s ∨ (∃ pos, t = { s with host := { s.host with pos := pos } }) ∨
    (∃ x v, t = { s with host := s.host.setVar x v }) ∨
    (∃ off v, t = { busWrite off v s with host := s.host.advance }) := by
  unfold hostStep at h
  split at h
  · next stmt _ =>
    cases stmt with
    | wr l src =>
      obtain ⟨off, -, -, -, h⟩ := (access_eq_next_iff _ _ _).mp h
      cases h; exact .inr (.inr (.inr ⟨off, _, rfl⟩))
    | rd l x =>
      obtain ⟨off, -, -, -, h⟩ := (access_eq_next_iff _ _ _).mp h
      cases h; exact .inr (.inr (.inl ⟨x, _, rfl⟩))
    | label l => cases h; exact .inr (.inl ⟨s.host.pos + 1, rfl⟩)
    | bnz x mask l =>
      simp only [hostStmt] at h
      split at h
      · cases h; exact .inr (.inl ⟨s.host.pos + 1, rfl⟩)
      · unfold jump at h
        split at h
        · next pos _ => cases h; exact .inr (.inl ⟨pos, rfl⟩)
        · cases h
  · cases h; exact .inl rfl

/-- A step is the move of whoever the schedule names first, the unit where it names no one
(assumptions 1 and 2). -/
theorem stepWith_cases {p : FpePrim} {s t : State} (h : stepWith p s = .next t) :
    ((s.sched = [] ∨ s.sched.head? = some .unit) ∧
      unitStep { s with sched := s.sched.tail } = .next t) ∨
    (s.sched.head? = some .prim ∧ primStep p { s with sched := s.sched.tail } = .next t) ∨
    (s.sched.head? = some .host ∧ hostStep { s with sched := s.sched.tail } = .next t) ∨
    ((∃ ld a, s.sched.head? = some (.lateAnswer ld a)) ∧ t = { s with sched := s.sched.tail }) ∨
    (s.sched.head? = some .reset ∧ t = resetUnit { s with sched := s.sched.tail }) := by
  unfold stepWith at h
  split at h
  · next hs =>
    refine .inl ⟨.inl hs, ?_⟩
    rw [hs, List.tail_nil, ← hs]
    exact h
  · next m rest hs =>
    simp only [hs, List.head?_cons, List.tail_cons]
    cases m with
    | host => exact .inr (.inr (.inl ⟨rfl, h⟩))
    | unit => exact .inl ⟨.inr rfl, h⟩
    | prim => exact .inr (.inl ⟨rfl, h⟩)
    | lateAnswer ld a => cases h; exact .inr (.inr (.inr (.inl ⟨⟨ld, a, rfl⟩, rfl⟩)))
    | reset => cases h; exact .inr (.inr (.inr (.inr ⟨rfl, rfl⟩)))

end Sys2Proof.Machine
end

