-- ==== Sys2Proof/Tests/Slice0.lean ====
section
/-! SUPPORT. Tests: well-formedness, words written out from the encodings of 30_encoding.md, single
commands with the values of 95_test_vectors.md, and for every obligation with hypotheses a witness that
meets them. -/

namespace Sys2Proof.Tests

open Sys2Proof.Machine

/-! ### Well-formedness: each check refuses an ill-formed term -/

theorem test_wellFormed_refuses_wide_width :
    Instr.wellFormed (.inv 256) = false ∧ Instr.wellFormed (.affLoad 256) = false ∧
    Instr.wellFormed (.hexEnc 256) = false ∧ Instr.wellFormed (.hexDec 256) = false ∧
    Instr.wellFormed (.fpeLoad 256 16) = false := by decide

theorem test_wellFormed_refuses_long_key : Instr.wellFormed (.fpeLoad 32 64) = false := by decide

theorem test_wellFormed_accepts_unsupported_fields :
    Instr.wellFormed (.inv 24) = true ∧ Instr.wellFormed (.inv 255) = true ∧
    Instr.wellFormed (.fpeLoad 32 17) = true ∧ Instr.wellFormed (.fpeLoad 255 63) = true := by decide

/-! ### Decoding: RSVD_HI, RSVD, KLEN, WIDTH, OP written out (30_encoding.md R70, R76) -/

theorem test_decode_nop : decode 0b00000000000000_000000_00000000_0000 = .ok .nop := by decide
theorem test_decode_inv : decode 0b00000000000000_000000_01000000_0001 = .ok (.inv 64) := by decide
theorem test_decode_affLoad :
    decode 0b00000000000000_000000_00010000_0010 = .ok (.affLoad 16) := by decide
theorem test_decode_affScr : decode 0b00000000000000_000000_00000000_0011 = .ok .affScr := by decide
theorem test_decode_affUnscr :
    decode 0b00000000000000_000000_00000000_0100 = .ok .affUnscr := by decide
theorem test_decode_affClear :
    decode 0b00000000000000_000000_00000000_0101 = .ok .affClear := by decide
theorem test_decode_hexEnc :
    decode 0b00000000000000_000000_00100000_0110 = .ok (.hexEnc 32) := by decide
theorem test_decode_hexDec :
    decode 0b00000000000000_000000_01000000_0111 = .ok (.hexDec 64) := by decide
theorem test_decode_fpeLoad :
    decode 0b00000000000000_011000_01000000_1000 = .ok (.fpeLoad 64 24) := by decide
theorem test_decode_fpeScr : decode 0b00000000000000_000000_00000000_1001 = .ok .fpeScr := by decide
theorem test_decode_fpeUnscr :
    decode 0b00000000000000_000000_00000000_1010 = .ok .fpeUnscr := by decide
theorem test_decode_fpeClear :
    decode 0b00000000000000_000000_00000000_1011 = .ok .fpeClear := by decide

/-- 95_test_vectors.md, L2-NOP and legality. -/
theorem test_decode_refuses_by_name :
    decode 0x10 = .error .unusedWidth ∧ decode 0x1000 = .error .unusedKlen ∧
    decode 0x40000 = .error .reservedBits ∧ decode 0x100000000 = .error .reservedBits ∧
    decode 0xC = .error .reservedOpcode ∧ decode 0xF = .error .reservedOpcode ∧
    decode 0x1201 = .error .unusedKlen ∧ decode 0x13 = .error .unusedWidth := by decide

/-- 30_encoding.md R85's examples. -/
theorem test_assembly_words :
    sourceWord .inv 32 0 = 0x201 ∧ sourceWord .fpeLoad 32 16 = 0x10208 ∧
    sourceWord .affScr 0 0 = 0x3 := by decide

/-- 20_memory.md R55's example of a key, as `wrkey` writes it. -/
theorem test_wrkey_example :
    (HostSource.wrkey [0xbf, 0xda, 0xaa, 0x8a, 0xc7, 0xc7, 0xb7, 0xc8,
      0x4c, 0x78, 0x8a, 0x3c, 0xb5, 0x2a, 0x7e, 0x12]).expand 0 0
      = [.wr (.reg (.key 0)) (.imm 0xc8b7c7c78aaadabf),
         .wr (.reg (.key 1)) (.imm 0x127e2ab53c8a784c)] := by decide

/-- 30_encoding.md R85: a `poll` takes a label and a variable of its own, none of the program's. -/
theorem test_poll_is_fresh :
    expandProgram [.stmt (.label 0), .stmt (.rd (.reg .res) 3), .poll, .poll]
      = [.label 0, .rd (.reg .res) 3, .label 3, .rd (.reg .status) 6, .bnz 6 1 3,
         .label 4, .rd (.reg .status) 7, .bnz 7 1 4] := by decide

/-! ### States to test on -/

/-- An FPE context of width 32 with the 16-byte key of 95_test_vectors.md L1-2. -/
def someFpe : FpeCtx :=
  ⟨true, 32, 16, padKey [0xbf, 0xda, 0xaa, 0x8a, 0xc7, 0xc7, 0xb7, 0xc8,
    0x4c, 0x78, 0x8a, 0x3c, 0xb5, 0x2a, 0x7e, 0x12]⟩

/-- An affine context of width 8 with salt 3, whose inverse is 0xab. -/
def someAff : AffCtx := ⟨true, 8, 3, 0xab⟩

/-- An idle unit, every operand register written, both contexts loaded: `OPA` 3, `HEX` the string
"000004d200000000". -/
def ready : State := { State.reset with
  status := ⟨false, true, false, false, .none⟩
  opa := 3
  opaWr := true
  key := #v[0xc8b7c7c78aaadabf, 0x127e2ab53c8a784c, 5, 7]
  keyWr := Vector.replicate 4 true
  hex := #v[0x3264343030303030, 0x3030303030303030]
  hexWr := Vector.replicate 2 true
  affCtx := someAff
  fpeCtx := someFpe }

/-- `ready` with the operand `v` and the command `c` just accepted. -/
def running (v c : Word) : State := accept c { ready with opa := v }

/-- `ready` waiting for the primitive on `FPE_SCR` of 3. -/
def waiting : State := startPrim (primRequest .enc someFpe 3) (running 3 0x9)

/-- A fresh unit that has just accepted `c`, its operand `v` written. -/
def fresh (v c : Word) : State := accept c { State.reset with opa := v, opaWr := true }

/-- A primitive that answers with its input. -/
def echo : FpePrim := ⟨fun _ _ d => .ok d, fun _ _ d => .ok d⟩

/-- `RES` and `STATUS` of an outcome. -/
def shown : Out → Word × Word
  | .next t => (t.res, statusWord t)
  | .fault _ => (0, 0)
  | .refused _ => (0, 0)

/-- `HEX0` and `HEX1` of an outcome. -/
def shownHex : Out → Word × Word
  | .next t => (t.hex[0], t.hex[1])
  | .fault _ => (0, 0)
  | .refused _ => (0, 0)

/-! ### Commands, with the values of 95_test_vectors.md -/

/-- L2-NOP. -/
theorem test_nop_clears_error : shown (issue 0x0 { ready with
    fpeCtx := FpeCtx.cleared
    affCtx := ⟨true, 32, 0x1ca7bc5b, 0x6b5f13d3⟩
    status := ⟨false, true, true, true, .notOdd⟩ }) = (0, 0x200012) := by decide

/-- L2-INV, width 64. -/
theorem test_inv_width64 :
    shown (step (fresh 0x9e3779b97f4a7c15 0x401)) = (0xf1de83e19937733d, 0x2) := by decide

/-- L2-INV: range before oddness. -/
theorem test_inv_range_first : shown (step (fresh 0x100 0x81)) = (0, 0xa06) := by decide

/-- L2-AFF, load. -/
theorem test_affLoad_status : shown (step (fresh 0x1ca7bc5b 0x202)) = (0, 0x200012) := by decide

/-- L2-AFF: salt 1 is refused. -/
theorem test_affLoad_salt1 : shown (step (fresh 1 0x82)) = (0, 0x206) := by decide

/-- L2-AFF, width 64. -/
theorem test_affScr_width64 : shown (step { fresh 0xdeadbeefcafebabe 0x3 with
    affCtx := ⟨true, 64, 0x9e3779b97f4a7c15, 0xf1de83e19937733d⟩ })
    = (0x24dc24851e1985b0, 0x400012) := by decide

/-- L2-AFF, width 16, backwards. -/
theorem test_affUnscr_width16 : shown (step { fresh 0x1942 0x4 with
    affCtx := ⟨true, 16, 0x1235, 0x301d⟩ }) = (0xbeef, 0x100012) := by decide

/-- L2-AFF: clearing an invalid context succeeds. -/
theorem test_affClear_fresh : shown (step (fresh 0 0x5)) = (0, 0x2) := by decide

/-- L2-HEX, width 64. -/
theorem test_hexEnc_width64 : shownHex (step (fresh 0x0123456789abcdef 0x406))
    = (0x3736353433323130, 0x6665646362613938) := by decide

/-- L2-HEX: width 16 is refused. -/
theorem test_hexEnc_width16 : shown (step (fresh 1 0x106)) = (0, 0x106) := by decide

/-- L2-HEX, width 32. -/
theorem test_hexDec_width32 : shown (step (accept 0x207 { State.reset with
    hex := #v[0x3264343030303030, 0x4141414141414141], hexWr := #v[true, true] }))
    = (1234, 0x2) := by decide

/-- L2-HEX: an uppercase digit. -/
theorem test_hexDec_uppercase : shown (step (accept 0x207 { State.reset with
    hex := #v[0x3264343030303044, 0], hexWr := #v[true, false] })) = (0, 0x506) := by decide

/-- L2-FPE, load. -/
theorem test_fpeLoad_status : shown (step { running 3 0x10208 with
    affCtx := AffCtx.cleared, fpeCtx := FpeCtx.cleared }) = (0, 0x1020000022) := by decide

/-- L2-FPE: the width is checked before the key size. -/
theorem test_fpeLoad_width_first : shown (step { running 3 0xF108 with
    affCtx := AffCtx.cleared, fpeCtx := FpeCtx.cleared }) = (0, 0x106) := by decide

/-- L1-2: the digit vector of 1234 at the port. -/
theorem test_fpeScr_request : (match step (running 1234 0x9) with
    | .next t => t.preq.map fun r => (r.dir, r.ld, r.d.toList, r.key.length)
    | .fault _ => none
    | .refused _ => none) = some (.enc, 8, [0, 0, 0, 0, 0, 4, 13, 2], 16) := by decide

/-- L2-FPE: an operand out of range makes no request. -/
theorem test_fpeScr_range : shown (step { running 0x100000000 0x9 with affCtx := AffCtx.cleared })
    = (0, 0x1020000a26) := by decide

/-- L2-FPE: `FAIL` in the decrypt direction. -/
theorem test_fpeUnscr_fail : shown (issueToPrim ⟨fun _ _ _ => .fail, fun _ _ _ => .fail⟩ 5 0xA
    { ready with affCtx := AffCtx.cleared }) = (0, 0x1020000726) := by decide

/-- L1-2, the answer's value. -/
theorem test_answer_value :
    unhexd (ld := 8) #v[1, 9, 12, 11, 2, 2, 0, 6] = 432742918 := by decide

/-- L2-FPE: a load after `FPE_CLEAR` has no key. -/
theorem test_fpeClear_wipes : (match issue 0xB { ready with affCtx := AffCtx.cleared } with
    | .next t => shown (issue 0x10208 t)
    | .fault _ => (0, 0)
    | .refused _ => (0, 0)) = (0, 0x306) := by decide

/-- L2-BREV. -/
theorem test_brev : brev 8 0xb4 = 0x2d ∧ brev 16 0x1234 = 0x2c48 ∧ brev 32 0x12345678 = 0x1e6a2c48 ∧
    brev 64 0x0123456789abcdef = 0xf7b3d591e6a2c480 := by decide

/-- L2-HAZ: the second `CMD` write is ignored; `STATUS` is 0x9 and then 0xa. -/
theorem test_overrun : statusWord (busWrite 0 0x202 (fresh 0x1ca7bc5b 0x201)) = 0x9 ∧
    (busWrite 0 0x202 (fresh 0x1ca7bc5b 0x201)).cmd = 0x201 ∧
    shown (step (busWrite 0 0x202 (fresh 0x1ca7bc5b 0x201))) = (0x6b5f13d3, 0xa) := by decide

/-- The command word fetched is the next thing the machine runs. -/
theorem test_withFetchWord_runs :
    shown (step ((State.reset).withFetchWord 32 0x1181)) = (0, 0x906) ∧
    shown (step ({ State.reset with sched := [.host] }.withFetchWord 32 0x9)) = (0, 0x806) := by decide

/-! ### Witnesses: the hypotheses of each obligation can be met -/

theorem someAff_inv : AffCtxInv someAff := by constructor <;> decide

theorem someFpe_inv : FpeCtxInv someFpe := by
  constructor
  · decide
  · decide
  · intro _; decide
  · decide

theorem running_lifecycle (v c : Word) : LifecycleInv (running v c) := by
  constructor <;> simp [running, ready, State.reset, latchOf]

theorem waiting_request : RequestInv waiting := by
  have hr : ∀ r, waiting.preq = some r → r = primRequest .enc someFpe 3 :=
    fun r h => (Option.some.inj h).symm
  exact ⟨fun _ _ => rfl, fun _ _ => by decide, fun r h => by rw [hr r h]; rfl,
    fun r h => by rw [hr r h]; decide⟩

theorem running_request (v c : Word) : RequestInv (running v c) :=
  ⟨fun _ h => (by cases h), fun _ h => (by cases h), fun _ h => (by cases h), fun _ h => (by cases h)⟩

theorem test_witness_DecodeUndoesEncode : Instr.wellFormed (.fpeLoad 255 63) = true := by decide

theorem test_witness_EncodeUndoesDecode : decode 0x3FFF8 = .ok (.fpeLoad 255 63) := by decide

theorem test_witness_AssemblyWordIsEncoding : Instr.wellFormed (.fpeLoad 64 32) = true := by decide

theorem test_witness_StepRunsDecodedCommand :
    (running 3 0x81).phase = .exec ∧ (running 3 0x81).sched = [] ∧
    decode (running 3 0x81).latch.cmd = .ok (.inv 8) ∧
    { running 3 0x81 with sched := [.unit, .host] }.sched.head? = some .unit := by decide

theorem test_witness_CommandWriteIsAcceptedWhenIdle :
    (ready.phase = .idle ∧ legal 0xC = false) ∧ (running 3 0x81).phase ≠ .idle ∧
    waiting.phase ≠ .idle := by decide

theorem test_witness_OverrunIsStickyUntilAcceptance :
    (LifecycleInv (running 3 0x81) ∧ (running 3 0x81).status.busy = true) ∧ ready.phase = .idle ∧
    ∃ t, stepWith echo { ready with
        status := ⟨false, true, false, true, .none⟩
        host := ⟨[.wr (.reg .cmd) (.imm 0)], 0, []⟩
        sched := [.host] } = .next t ∧ t.status.ovr = false :=
  ⟨⟨running_lifecycle _ _, by decide⟩, by decide, _, rfl, by decide⟩

theorem test_witness_IllegalCommandHasNoOtherEffect :
    (running 3 0x40000).phase = .exec ∧ legal (running 3 0x40000).latch.cmd = false ∧
    legal 0xC = false ∧ legal 0xB = true ∧ legal 0x13 = false ∧ legal 0x1201 = false ∧
    legal 0x3FFF8 = true := by decide

theorem test_witness_FirstErrorIsReported :
    firstError (.inv 24) (running 3 0x181) = .invalidWidth ∧
    firstError (.fpeLoad 32 17) (running 3 0x11208) = .invalidKeySize ∧
    firstError .affScr (fresh 3 0x3) = .noContext ∧
    firstError (.hexDec 64) (fresh 3 0x407) = .nullOperand ∧
    firstError .affUnscr (running 0x100 0x4) = .operandRange ∧
    firstError (.affLoad 8) (running 1 0x82) = .notOdd ∧
    firstError (.hexDec 32) (accept 0x207 { ready with hex := #v[0x41, 0] }) = .encodingError := by
  decide

theorem test_witness_NoErrorMeansSuccess :
    firstError .nop (running 3 0x0) = .none ∧ firstError (.inv 8) (running 3 0x81) = .none ∧
    firstError (.affLoad 8) (running 3 0x82) = .none ∧ firstError .affScr (running 255 0x3) = .none ∧
    firstError (.hexEnc 32) (running 3 0x206) = .none ∧
    firstError (.hexDec 64) (running 3 0x407) = .none ∧
    firstError (.fpeLoad 64 32) (running 3 0x20408) = .none ∧
    firstError .fpeScr (running 3 0x9) = .none := by decide

theorem test_witness_CompletionShowsItsCode :
    Completed .none (complete .none ready) ∧ Completed .operandRange (complete .operandRange ready) :=
  ⟨⟨rfl, rfl, rfl, by decide, rfl⟩, ⟨rfl, rfl, rfl, by decide, rfl⟩⟩

theorem test_witness_CommandsIgnoreStatusFlags :
    ∃ t, exec (.inv 8) (running 3 0x81) = .next t ∧ t.phase = .idle := ⟨_, rfl, rfl⟩

theorem test_witness_ResetAbortsCommandInFlight :
    (running 3 0x81).phase ≠ .idle ∧ waiting.phase ≠ .idle := by decide

theorem test_witness_OnlyAnswerOrResetEndsWaiting :
    (∃ t, stepWith echo { waiting with sched := [.unit, .prim] } = .next t) ∧
    waiting.phase = .waitPrim := ⟨⟨_, rfl⟩, rfl⟩

theorem test_witness_ResultsHoldUntilCompletion :
    (∃ t, stepWith echo { running 3 0x81 with sched := [.host] } = .next t ∧ t.phase ≠ .idle) ∧
    (∃ t, stepWith echo (running 3 0x9) = .next t ∧ t.phase ≠ .idle) :=
  ⟨⟨_, rfl, by decide⟩, ⟨_, rfl, by decide⟩⟩

theorem test_witness_OperandWritesSpareTheRunningCommand :
    ((running 3 0x81).phase = .exec ∧ (∃ t, unitStep (running 3 0x81) = .next t) ∧
      decode (running 3 0x81).latch.cmd ≠ .ok .fpeClear) ∧
    (decode (running 3 0xB).latch.cmd = .ok .fpeClear ∧ ∃ t, unitStep (running 3 0xB) = .next t) ∧
    (decode (running 3 0x206).latch.cmd = .ok (.hexEnc 32) ∧
      firstError (.hexEnc 32) (running 3 0x206) = .none ∧
      ∃ t, unitStep (running 3 0x206) = .next t) ∧
    firstError (.hexEnc 16) (running 3 0x106) ≠ .none ∧
    (waiting.phase = .waitPrim ∧ ∃ t, primStep echo waiting = .next t) :=
  ⟨⟨rfl, ⟨_, rfl⟩, by decide⟩, ⟨rfl, _, rfl⟩, ⟨by decide, by decide, _, rfl⟩, by decide, rfl, _, rfl⟩

theorem test_witness_OperandRegisterBelongsToTheHost :
    ∃ t, stepWith echo { running 3 0x81 with sched := [.unit] } = .next t := ⟨_, rfl⟩

theorem test_witness_ResultWrittenOnlyOnSuccess :
    RequestInv (running 3 0x81) ∧
    (∃ t, stepWith echo (running 3 0x81) = .next t ∧ t.res ≠ (running 3 0x81).res) ∧
    RequestInv { waiting with sched := [.prim] } ∧
    ∃ t, stepWith echo { waiting with sched := [.prim] } = .next t ∧ t.res ≠ waiting.res :=
  ⟨running_request _ _, ⟨_, rfl, by decide⟩,
    ⟨waiting_request.1, waiting_request.2, waiting_request.3, waiting_request.4⟩, _, rfl, by decide⟩

theorem test_witness_ReadOnlyWriteOnlyAndUnmappedAccesses :
    0x78 ∈ [0x50, 0x58, 0x60, 0x68, 0x70, 0x78] ∧ 0x18 ∈ [0x08, 0x18] ∧
    0x38 ∈ [0x20, 0x28, 0x30, 0x38] := by decide

theorem test_witness_OnlyAlignedWordAccessesAreDefined :
    (0x78 < 0x80 ∧ (8 = 8 ∧ 0x78 % 8 = 0)) ∧ (0x7c < 0x80 ∧ ¬(8 = 8 ∧ 0x7c % 8 = 0)) ∧
    (0x78 < 0x80 ∧ ¬(4 = 8 ∧ 0x78 % 8 = 0)) ∧
    (Reg.hex 1, 0x48) ∈ [(Reg.cmd, 0x00), (.hex 1, 0x48)] := by decide

theorem test_witness_WindowStartsAtUnitBase :
    Config.unitBase ≤ Config.unitBase + 0x78 ∧ 0x80 ≤ Config.unitBase + 0x80 - Config.unitBase := by
  omega

theorem test_witness_BranchOnMaskedBits :
    varGet 7 [(7, 0x206)] &&& 0x1 = 0 ∧ varGet 7 [(7, 0x206)] &&& 0x4 ≠ 0 ∧
    [HostStmt.label 5, .bnz 7 4 5][0]? = some (.label 5) := by decide

theorem test_witness_StatusFieldsAtTheirPlaces :
    AffCtxInv ready.affCtx ∧ FpeCtxInv ready.fpeCtx ∧ ready.fpeCtx.valid = true :=
  ⟨someAff_inv, someFpe_inv, rfl⟩

theorem test_witness_KeyMaterialReachesOnlyThePrimitive :
    ready.withoutKeys = { ready with key := #v[9, 9, 9, 9] }.withoutKeys ∧
    ready ≠ { ready with key := #v[9, 9, 9, 9] } ∧ ready.sched.head? ≠ some .prim :=
  ⟨rfl, fun h => absurd (congrArg State.key h) (by decide), by decide⟩

theorem test_witness_InverseExistsAndIsUnique :
    8 ∈ [8, 16, 32, 64] ∧ 3 < 2 ^ 8 ∧ 3 % 2 = 1 ∧ 0xab < 2 ^ 8 ∧ 3 * 0xab % 2 ^ 8 = 1 := by decide

theorem test_witness_InvDeliversTheInverse :
    (running 3 0x81).latch.opaWr = true ∧ (running 3 0x81).latch.opa.toNat < 2 ^ 8 ∧
    (running 3 0x81).latch.opa.toNat % 2 = 1 ∧ (running 1 0x81).latch.opa.toNat % 2 = 1 ∧
    (running 0xffffffffffffffff 0x401).latch.opa.toNat < 2 ^ 64 := by decide

theorem test_witness_InverseIsAnInvolution : 64 ∈ [8, 16, 32, 64] ∧ 0x1ca7bc5b % 2 = 1 := by decide

theorem test_witness_BitReversalMovesEveryBit : 64 ∈ [8, 16, 32, 64] ∧ 2 ^ 64 - 1 < 2 ^ 64 := by decide

theorem test_witness_AffineMaps : 3 * 0xab % 2 ^ 8 = 1 ∧ 255 < 2 ^ 8 := by decide

theorem test_witness_AffLoadConstructsTheContext :
    (running 3 0x82).latch.opaWr = true ∧ (running 3 0x82).latch.opa.toNat < 2 ^ 8 ∧
    (running 3 0x82).latch.opa.toNat % 2 = 1 ∧ 1 < (running 3 0x82).latch.opa.toNat ∧
    (fresh 3 0x82).fpeCtx.valid = false ∧ (fresh 3 0x82).status.ovr = false := by decide

theorem test_witness_AffineScrambleResult :
    AffCtxInv (running 255 0x3).affCtx ∧ (running 255 0x3).affCtx.valid = true ∧
    (running 255 0x3).latch.opaWr = true ∧
    (running 255 0x3).latch.opa.toNat < 2 ^ (running 255 0x3).affCtx.width.toNat :=
  ⟨someAff_inv, rfl, rfl, by decide⟩

theorem test_witness_ScramblingTwiceReturnsTheValue :
    ready.phase = .idle ∧ AffCtxInv ready.affCtx ∧ ready.affCtx.valid = true ∧
    (255 : Word).toNat < 2 ^ ready.affCtx.width.toNat := ⟨rfl, someAff_inv, rfl, by decide⟩

theorem test_witness_DigitVectorAndItsValue : 32 ∈ [32, 64] ∧ (0xffffffff : Word).toNat < 2 ^ 32 := by
  decide

theorem test_witness_CharactersOfDigits :
    isHexChar 0x39 = true ∧ isHexChar 0x3a = false ∧ isHexChar 0x61 = true ∧ isHexChar 0x67 = false := by
  decide

theorem test_witness_HexEncWritesTheCharacters :
    (running 3 0x206).latch.opaWr = true ∧ (running 3 0x206).latch.opa.toNat < 2 ^ 32 := by decide

theorem test_witness_HexDecReadsTheCharacters :
    (running 3 0x407).latch.hexWr[0] = true ∧ (running 3 0x407).latch.hexWr[1] = true ∧
    ∀ k < 64 / 4, isHexChar (stringByte (running 3 0x407).latch.hex k) = true := by decide

theorem test_witness_EncodeThenDecodeReturnsTheValue :
    64 ∈ [32, 64] ∧ ready.phase = .idle ∧ (0xffffffffffffffff : Word).toNat < 2 ^ 64 := by decide

theorem test_witness_DecodeThenEncodeReturnsTheString :
    (ready.phase = .idle ∧ ready.hexWr[0] = true ∧ ready.hexWr[1] = true ∧
      ∀ k < 64 / 4, isHexChar (stringByte ready.hex k) = true) ∧
    (writeReg (.hex 0) 0x3264343030303030 State.reset).phase = .idle ∧
    (writeReg (.hex 0) 0x3264343030303030 State.reset).hexWr[0] = true ∧
    (writeReg (.hex 0) 0x3264343030303030 State.reset).hexWr[1] = false ∧
    ∀ k < 32 / 4,
      isHexChar (stringByte (writeReg (.hex 0) 0x3264343030303030 State.reset).hex k) = true := by
  decide

theorem test_witness_FpeLoadConstructsTheContext :
    32 ∈ [16, 24, 32] ∧ ∀ r (h : r < 4), r < 32 / 8 → (running 3 0x20408).latch.keyWr[r] = true := by
  decide

theorem test_witness_FpeScrambleCallsThePrimitive :
    (running 3 0x9).fpeCtx.valid = true ∧ (running 3 0x9).latch.opaWr = true ∧
    (running 3 0x9).latch.opa.toNat < 2 ^ (running 3 0x9).fpeCtx.width.toNat := by decide

theorem test_witness_AnswersMapToOutcomes :
    waiting.phase = .waitPrim ∧ waiting.preq = some (primRequest .enc someFpe 3) ∧
    primResult echo (primRequest .enc someFpe 3) = .ok (hexd 8 3) ∧
    primResult ⟨fun _ _ _ => .reject, fun _ _ _ => .fail⟩ (primRequest .enc someFpe 3) = .reject ∧
    primResult ⟨fun _ _ _ => .reject, fun _ _ _ => .fail⟩ (primRequest .dec someFpe 3) = .fail :=
  ⟨rfl, rfl, rfl, rfl, rfl⟩

theorem echo_roundTrip : echo.RoundTrip :=
  fun _ _ d _ _ _ h => by cases h; rfl

theorem echo_neverRejects : echo.EncNeverRejects := fun _ _ _ _ _ h => by cases h

theorem echo_neverFails : echo.EncNeverFails := fun _ _ _ _ _ h => by cases h

theorem test_witness_FpeUnscrambleUndoesScramble :
    echo.RoundTrip ∧ ready.phase = .idle ∧ FpeCtxInv ready.fpeCtx ∧ ready.fpeCtx.valid = true ∧
    (0xffffffff : Word).toNat < 2 ^ ready.fpeCtx.width.toNat ∧
    ∃ t, issueToPrim echo 0xffffffff 0x9 ready = .next t ∧ t.status.err = false :=
  ⟨echo_roundTrip, rfl, someFpe_inv, rfl, by decide, _, rfl, by decide⟩

theorem test_witness_FpeScrambleIsAPermutation :
    echo.RoundTrip ∧ echo.EncNeverRejects ∧ echo.EncNeverFails ∧ ready.phase = .idle ∧
    FpeCtxInv ready.fpeCtx ∧ ready.fpeCtx.valid = true ∧
    ∃ t u, issueToPrim echo 3 0x9 ready = .next t ∧ issueToPrim echo 3 0x9 ready = .next u ∧
      t.res = u.res :=
  ⟨echo_roundTrip, echo_neverRejects, echo_neverFails, rfl, someFpe_inv, rfl, _, _, rfl, rfl, rfl⟩

theorem test_witness_FpeClearWipesTheKey : 32 ∈ [32, 64] ∧ 16 ∈ [16, 24, 32] := by decide

theorem test_witness_NopOnlyAcknowledges : ready.phase = .idle := by decide

theorem test_witness_StepKeepsTheLifecycle :
    LifecycleInv (running 3 0x9) ∧ ∃ t, step (running 3 0x9) = .next t ∧ t.phase = .waitPrim :=
  ⟨running_lifecycle _ _, _, rfl, rfl⟩

theorem test_witness_StepKeepsTheContexts :
    AffCtxInv (running 5 0x82).affCtx ∧ FpeCtxInv (running 5 0x82).fpeCtx ∧
    ∃ t, step (running 5 0x82) = .next t ∧ t.affCtx ≠ (running 5 0x82).affCtx :=
  ⟨someAff_inv, someFpe_inv, _, rfl, by decide⟩

theorem test_witness_StepKeepsTheRequest :
    RequestInv waiting ∧ waiting.preq.isSome = true ∧ ∃ t, step waiting = .next t :=
  ⟨waiting_request, rfl, _, rfl⟩

theorem test_witness_StepKeepsFreshness :
    FreshInv State.reset ∧ State.reset.phase = .idle ∧ State.reset.status.done = false ∧
    ∃ t, step State.reset = .next t := by
  refine ⟨fun _ _ => ?_, rfl, rfl, _, rfl⟩
  decide

theorem test_witness_StepKeepsWrittenFlags :
    WrittenInv State.reset ∧ ∃ t, step State.reset = .next t := by
  refine ⟨⟨fun _ => rfl, fun i h _ => ?_, fun i h _ => ?_⟩, _, rfl⟩
  · revert h; revert i; decide
  · revert h; revert i; decide

theorem test_witness_StepKeepsHostVariables :
    varsWf [(1, 5), (4, 2)] = true ∧ varsWf [(4, 5), (1, 2)] = false ∧ varsWf [(1, 0)] = false ∧
    ∃ t, step { ready with host := ⟨[.rd (.reg .opa) 1], 0, [(1, 5), (4, 2)]⟩, sched := [.host] }
      = .next t ∧ t.host.vars = [(1, 3), (4, 2)] :=
  ⟨by decide, by decide, by decide, _, rfl, by decide⟩

end Sys2Proof.Tests
end

section
/-! SUPPORT. A command as its error causes and what it does without one: `exec` raises `firstError`
(60_exceptions.md R202), and `perform` is the rest. -/

namespace Sys2Proof.Machine

/-- What a command does once none of its error causes applies (60_exceptions.md R201);
`exec_eq_perform` ties it to `exec`. -/
def perform (i : Instr) (s : State) : Out :=
  match i with
  | .nop => succeed s
  | .inv n => succeed { s with res := zext64 (invN n s.latch.opa.toNat) }
  | .affLoad n => succeed { s with affCtx := AffCtx.ofSalt n s.latch.opa }
  | .affScr => succeed { s with res := s.affCtx.map s.latch.opa }
  | .affUnscr => succeed { s with res := s.affCtx.map s.latch.opa }
  | .affClear => succeed { s with affCtx := AffCtx.cleared }
  | .hexEnc n =>
    succeed { s with hex := hexRegs (digitCount n) s.latch.opa, hexWr := #v[true, true] }
  | .hexDec n => succeed { s with
      res := zext64 (digitsValue
        ((parseDigits (stringBytes s.latch.hex (digitCount n))).getD [])) }
  | .fpeLoad n k => succeed { s with fpeCtx := FpeCtx.ofKey n k s.latch.key }
  | .fpeScr => .next (startPrim (primRequest .enc s.fpeCtx s.latch.opa) s)
  | .fpeUnscr => .next (startPrim (primRequest .dec s.fpeCtx s.latch.opa) s)
  | .fpeClear => succeed { s with
      fpeCtx := FpeCtx.cleared
      key := Vector.replicate 4 0
      keyWr := Vector.replicate 4 false }

/-! ### Each cause as the check that `exec` makes -/

theorem decide_notMem_affWidths (n : Nat) : decide (n ∉ [8, 16, 32, 64]) = !validAffWidth n :=
  decide_not

theorem decide_notMem_fpeWidths (n : Nat) : decide (n ∉ [32, 64]) = !validFpeWidth n := decide_not

theorem decide_notMem_keySizes (k : Nat) : decide (k ∉ [16, 24, 32]) = !validKeySize k := decide_not

theorem decide_pow_le (v : Word) (n : Nat) : decide (2 ^ n ≤ v.toNat) = !inRange v n := by
  simp [inRange, ← decide_not]

theorem mod_two_beq_zero (v : Word) : (v.toNat % 2 == 0) = !odd v := by
  rw [Bool.eq_iff_iff]
  simp [← Bool.not_eq_true]

theorem ord_eq_none_iff (b : Byte) : ord b = none ↔ isHexChar b = false := by
  unfold ord isHexChar
  split_ifs <;> simp_all

theorem parseDigits_eq_none_iff (bs : List Byte) :
    parseDigits bs = none ↔ ∃ b ∈ bs, isHexChar b = false := by
  induction bs with
  | nil => simp [parseDigits]
  | cons b bs ih =>
    rw [parseDigits_cons]
    cases hb : ord b with
    | none => simp [(ord_eq_none_iff b).1 hb]
    | some d =>
      have : isHexChar b ≠ false := fun h => by simp [(ord_eq_none_iff b).2 h] at hb
      simp [ih, this]

/-- A string with a bad character is one that does not parse (42_fpe_integer_encoder.md R154). -/
theorem badString_hexDec (l : Latch) (n : Nat) :
    badString l (.hexDec n) = (parseDigits (stringBytes l.hex (digitCount n))).isNone := by
  rw [Bool.eq_iff_iff, Option.isNone_iff_eq_none, parseDigits_eq_none_iff]
  simp [badString, stringBytes, digitCount]

theorem missingOperand_hexDec (l : Latch) (n : Nat) :
    missingOperand l (.hexDec n) = true ↔
      l.hexWr[0] = false ∨ (n = 64 ∧ l.hexWr[1] = false) := by
  simp [missingOperand]

/-- The KEY registers below `k / 8` are the first `k / 8` of the four (43_fpe_scrambler.md R180). -/
theorem missingOperand_fpeLoad (l : Latch) (n k : Nat) :
    missingOperand l (.fpeLoad n k) = !keyWritten k l := by
  rw [Bool.eq_iff_iff, Bool.not_eq_true', ← Bool.not_eq_true]
  calc missingOperand l (.fpeLoad n k) = true
      ↔ ∃ r < k / 8, l.keyWr.toList[r]? = some false := by simp [missingOperand]
    _ ↔ false ∈ l.keyWr.toList.take (k / 8) := by
      simp only [List.mem_iff_getElem?, List.getElem?_take, Option.ite_none_right_eq_some]
    _ ↔ ¬ keyWritten k l = true := by
      simp only [keyWritten, List.all_eq_true, id_eq]
      exact ⟨fun h hall => absurd (hall _ h) (by decide), fun h => by simpa using h⟩

theorem badSalt_affLoad (v : Word) (n : Nat) :
    badSalt v (.affLoad n) = true ↔ odd v = false ∨ v = 1 := by
  simp [badSalt, mod_two_beq_zero, ← BitVec.toNat_inj]

/-! ### The commands -/

/-- A chain of causes ends in the code of its first one. -/
theorem raise_firstCause {c : Prop} [Decidable c] {e rest : ErrCode} (he : e ≠ .none) (o : Out)
    (s : State) :
    (if (if c then e else rest) = .none then o else raise (if c then e else rest) s)
      = if c then raise e s else if rest = .none then o else raise rest s := by
  by_cases hc : c <;> simp [hc, he]

/-- A command raises its first error, and performs where it has none (60_exceptions.md R202). -/
theorem exec_eq_perform (i : Instr) (s : State) :
    exec i s = if firstError i s = .none then perform i s else raise (firstError i s) s := by
  unfold firstError
  simp only [raise_firstCause, ne_eq, reduceCtorEq, not_false_eq_true, if_true]
  cases i
  case nop | affClear | fpeClear => rfl
  case inv | hexEnc | affScr | affUnscr | fpeScr | fpeUnscr =>
    simp only [badWidth, badKeySize, lacksContext, missingOperand, outOfRange, operandWidth, badSalt,
      badString, decide_notMem_affWidths, decide_notMem_fpeWidths, decide_pow_le, mod_two_beq_zero,
      Bool.not_eq_true', Bool.false_eq_true, if_false]
    rfl
  case affLoad n =>
    simp only [badSalt_affLoad, badWidth, badKeySize, lacksContext, missingOperand, outOfRange,
      operandWidth, badString, decide_notMem_affWidths, decide_pow_le, Bool.not_eq_true',
      Bool.false_eq_true, if_false]
    rfl
  case fpeLoad n k =>
    simp only [missingOperand_fpeLoad, badWidth, badKeySize, lacksContext, outOfRange, operandWidth,
      badSalt, badString, decide_notMem_fpeWidths, decide_notMem_keySizes, Bool.not_eq_true',
      Bool.false_eq_true, if_false]
    rfl
  case hexDec n =>
    simp only [missingOperand_hexDec, badString_hexDec, badWidth, badKeySize, lacksContext,
      outOfRange, operandWidth, badSalt, decide_notMem_fpeWidths, Bool.not_eq_true',
      Bool.false_eq_true, if_false, exec, execHexDec, perform, ite_or]
    cases parseDigits (stringBytes s.latch.hex (digitCount n)) <;> rfl

/-- The causes are read from the latch and the contexts alone. -/
theorem firstError_congr (i : Instr) {s s' : State} (hl : s'.latch = s.latch)
    (ha : s'.affCtx = s.affCtx) (hf : s'.fpeCtx = s.fpeCtx) : firstError i s' = firstError i s := by
  cases s; cases s'
  cases hl; cases ha; cases hf
  rfl

end Sys2Proof.Machine
end

section
/-! SUPPORT. What the moves of the unit and the primitive do to a command in flight: they end it
(60_exceptions.md R204, R205) or call the primitive; and how a predicate is kept by every step. -/

namespace Sys2Proof.Machine

/-- What a successful command writes beside `STATUS` and the phase. An FPE scramble writes nothing
itself: its result comes with the answer of the primitive. -/
def commandWrites : Instr → Writes
  | .nop => {}
  | .inv _ => { res := true }
  | .affLoad _ => { aff := true }
  | .affScr => { res := true }
  | .affUnscr => { res := true }
  | .affClear => { aff := true }
  | .hexEnc _ => { hex := true }
  | .hexDec _ => { res := true }
  | .fpeLoad _ _ => { fpe := true }
  | .fpeScr => {}
  | .fpeUnscr => {}
  | .fpeClear => { key := true, fpe := true }

/-- The command in flight in `s` has ended in `t`: with success it may have written what `w` names,
with an error it has written nothing (60_exceptions.md R204). -/
def Ends (w : Writes) (s t : State) : Prop :=
  ∃ code, Completed code t ∧ Frame w s t ∧ (code ≠ .none → Frame {} s t)

/-- A frame that writes nothing is a frame of any writes. -/
theorem Frame.widen {w : Writes} {s t : State} (h : Frame {} s t) : Frame w s t where
  cmd := h.cmd
  ovr := h.ovr
  opa := h.opa
  res := fun _ => h.res rfl
  key := fun _ => h.key rfl
  hex := fun _ => h.hex rfl
  aff := fun _ => h.aff rfl
  fpe := fun _ => h.fpe rfl
  preq := h.preq
  host := h.host
  sched := h.sched
  window := fun off ho => h.window off fun h0 => ho (by simp_all [Writes.offsets])

theorem ends_success {w : Writes} {s s' : State} (h : Frame w s (complete .none s')) :
    Ends w s (complete .none s') :=
  ⟨.none, completed_complete _ _, h, fun hne => absurd rfl hne⟩

theorem ends_error {w : Writes} (code : ErrCode) (s : State) : Ends w s (complete code s) :=
  ⟨code, completed_complete _ _, (frame_complete_self code s).widen,
    fun _ => frame_complete_self code s⟩

theorem Ends.frame {w : Writes} {s t : State} (h : Ends w s t) : Frame w s t := by
  obtain ⟨_, _, hf, _⟩ := h
  exact hf

theorem Ends.completed {w : Writes} {s t : State} (h : Ends w s t) : ∃ code, Completed code t := by
  obtain ⟨code, hc, _, _⟩ := h
  exact ⟨code, hc⟩

/-- `RES` changes only with success (10_state.md R33). -/
theorem Ends.res_changed {w : Writes} {s t : State} (h : Ends w s t) (hne : t.res ≠ s.res) :
    Completed .none t ∧ w.res = true := by
  obtain ⟨code, hc, hf, herr⟩ := h
  have hcode : code = .none := by
    by_contra hcode
    exact hne ((herr hcode).res rfl)
  refine ⟨hcode ▸ hc, ?_⟩
  by_contra hw
  exact hne (hf.res (by simpa using hw))

/-- A command ends, or it is an FPE scramble whose checks passed and which calls the primitive. -/
theorem exec_ends_or_calls {i : Instr} {s t : State} (h : exec i s = .next t) :
    Ends (commandWrites i) s t ∨
    ∃ dir : Dir, i = dir.command ∧ s.fpeCtx.valid = true ∧ s.latch.opaWr = true ∧
      s.latch.opa.toNat < 2 ^ s.fpeCtx.width.toNat ∧
      t = startPrim (primRequest dir s.fpeCtx s.latch.opa) s := by
  rcases exec_cases h with ⟨code, -, rfl⟩ | ⟨rfl, rfl⟩ | ⟨n, rfl, -, -, -, -, rfl⟩ |
    ⟨n, rfl, -, -, -, -, -, rfl⟩ | ⟨rfl | rfl, -, -, -, rfl⟩ | ⟨rfl, rfl⟩ | ⟨n, rfl, -, -, -, rfl⟩ |
    ⟨n, ds, rfl, -, -, -, -, rfl⟩ | ⟨n, k, rfl, -, -, -, rfl⟩ | ⟨dir, rfl, hv, ho, hr, rfl⟩ |
    ⟨rfl, rfl⟩
  · exact .inl (ends_error code s)
  · exact .inl (ends_success (frame_complete_self _ _))
  · exact .inl (ends_success (frame_complete_res _ _ _))
  · exact .inl (ends_success (frame_complete_aff _ _ _))
  · exact .inl (ends_success (frame_complete_res _ _ _))
  · exact .inl (ends_success (frame_complete_res _ _ _))
  · exact .inl (ends_success (frame_complete_aff _ _ _))
  · exact .inl (ends_success (frame_complete_hex _ _ _ _))
  · exact .inl (ends_success (frame_complete_res _ _ _))
  · exact .inl (ends_success (frame_complete_fpe _ _ _))
  · exact .inr ⟨dir, rfl, hv, ho, (inRange_iff _ _).1 hr, rfl⟩
  · exact .inl (ends_success (frame_complete_fpe_key _ _ _ _ _))

/-- What the latched command writes, nothing where it is illegal (60_exceptions.md R206). -/
def latchedWrites (l : Latch) : Writes :=
  match decode l.cmd with
  | .ok i => commandWrites i
  | .error _ => {}

/-- A latched command that writes `RES` is one of those that produce a result (10_state.md R33). -/
theorem latchedWrites_res {l : Latch} (h : (latchedWrites l).res = true) :
    ∃ i, decode l.cmd = .ok i ∧ ((∃ n, i = .inv n) ∨ i = .affScr ∨ i = .affUnscr
      ∨ i = .fpeScr ∨ i = .fpeUnscr ∨ ∃ n, i = .hexDec n) := by
  unfold latchedWrites at h
  split at h
  · next i hi =>
    refine ⟨i, hi, ?_⟩
    cases i <;> simp_all [commandWrites]
  · cases h

/-- The unit's move: none, or it ends the latched command, or it calls the primitive for it. -/
theorem unitStep_ends_or_calls {s t : State} (h : unitStep s = .next t) :
    (s.phase ≠ .exec ∧ t = s) ∨
    (s.phase = .exec ∧ Ends (latchedWrites s.latch) s t) ∨
    (s.phase = .exec ∧ ∃ dir : Dir, decode s.latch.cmd = .ok dir.command ∧
      s.fpeCtx.valid = true ∧ s.latch.opaWr = true ∧
      s.latch.opa.toNat < 2 ^ s.fpeCtx.width.toNat ∧
      t = startPrim (primRequest dir s.fpeCtx s.latch.opa) s) := by
  rcases unitStep_cases h with h | ⟨hp, i, hi, h⟩ | ⟨hp, ⟨e, he⟩, rfl⟩
  · exact .inl h
  · rcases exec_ends_or_calls h with h | ⟨dir, rfl, hcall⟩
    · exact .inr (.inl ⟨hp, by simpa [latchedWrites, hi] using h⟩)
    · exact .inr (.inr ⟨hp, dir, hi, hcall⟩)
  · exact .inr (.inl ⟨hp, ends_error _ _⟩)

/-- The primitive's move: none, or its answer ends the waiting command and consumes the request. -/
theorem primStep_ends {p : FpePrim} {s t : State} (h : primStep p s = .next t) :
    t = s ∨ ∃ r, s.phase = .waitPrim ∧ s.preq = some r ∧
      Ends { res := true } { s with preq := none } t := by
  rcases primStep_cases h with h | ⟨r, hp, hr, h⟩
  · exact .inl h
  · refine .inr ⟨r, hp, hr, ?_⟩
    rcases takeAnswer_cases h with ⟨c, -, rfl⟩ | ⟨-, rfl⟩ | ⟨-, rfl⟩
    · exact ends_success (frame_complete_res _ { s with preq := none } _)
    · exact ends_error _ _
    · exact ends_error _ _

/-- The unit's move writes neither `OPA`, nor its flag, nor `OVR` (10_state.md R28, R32). -/
theorem unitStep_opa_ovr {s t : State} (h : unitStep s = .next t) :
    (t.opa = s.opa ∧ t.opaWr = s.opaWr) ∧ t.status.ovr = s.status.ovr := by
  rcases unitStep_ends_or_calls h with ⟨-, rfl⟩ | ⟨-, h⟩ | ⟨-, dir, -, -, -, -, rfl⟩
  · simp
  · exact ⟨h.frame.opa, h.frame.ovr⟩
  · simp

/-- Nor does the primitive's move. -/
theorem primStep_opa_ovr {p : FpePrim} {s t : State} (h : primStep p s = .next t) :
    (t.opa = s.opa ∧ t.opaWr = s.opaWr) ∧ t.status.ovr = s.status.ovr := by
  rcases primStep_ends h with rfl | ⟨r, -, -, h⟩
  · simp
  · exact ⟨h.frame.opa, h.frame.ovr⟩

/-- What every step keeps, from its moves: a predicate in which the host agent and the schedule take no
part, and which the unit's move, the primitive's, a host write and a reset keep. -/
theorem stepWith_keeps {p : FpePrim} {I : State → Prop}
    (hagents : ∀ s h q, I s → I { s with host := h, sched := q })
    (hunit : ∀ s t, I s → unitStep s = .next t → I t)
    (hprim : ∀ s t, I s → primStep p s = .next t → I t)
    (hwrite : ∀ s off v, I s → I (busWrite off v s)) (hreset : ∀ s, I (resetUnit s))
    (s t : State) (hi : I s) (h : stepWith p s = .next t) : I t := by
  have hi' := hagents s s.host s.sched.tail hi
  rcases stepWith_cases h with ⟨-, h⟩ | ⟨-, h⟩ | ⟨-, h⟩ | ⟨-, rfl⟩ | ⟨-, rfl⟩
  · exact hunit _ _ hi' h
  · exact hprim _ _ hi' h
  · rcases hostStep_cases h with rfl | ⟨pos, rfl⟩ | ⟨x, v, rfl⟩ | ⟨off, v, rfl⟩
    · exact hi'
    · exact hagents _ _ _ hi'
    · exact hagents _ _ _ hi'
    · exact hagents _ _ _ (hwrite _ off v hi')
  · exact hi'
  · exact hreset _

end Sys2Proof.Machine
end

section
/-! SUPPORT. The state after reset (10_state.md R44) and the invariants in it. -/

namespace Sys2Proof.Machine

theorem atReset_reset : AtReset State.reset where
  cmd := rfl
  status := rfl
  statusWord := by decide
  opa := ⟨rfl, rfl⟩
  res := rfl
  key := by decide
  hex := by decide
  phase := rfl
  preq := rfl
  aff := rfl
  fpe := by decide

/-- The reset event differs from power-on in the latch, the counter, the host and the schedule. -/
theorem atReset_resetUnit (s : State) : AtReset (resetUnit s) :=
  have h := atReset_reset
  ⟨h.cmd, h.status, h.statusWord, h.opa, h.res, h.key, h.hex, h.phase, h.preq, h.aff, h.fpe⟩

/-- Settles O14: the reset event sets all that R44 names to the values of `State.reset`. -/
theorem resetSetsEveryValue : Obligations.ResetSetsEveryValue :=
  ⟨atReset_reset, fun _ s => ⟨resetUnit s, rfl, atReset_resetUnit s⟩⟩

theorem AtReset.fpeCtx_eq {t : State} (h : AtReset t) : t.fpeCtx = FpeCtx.cleared := by
  obtain ⟨hv, hw, hk, hkey⟩ := h.fpe
  have : t.fpeCtx.key = Vector.replicate 32 0 := by
    ext1 j hj
    simpa using hkey j hj
  change FpeCtx.mk t.fpeCtx.valid t.fpeCtx.width t.fpeCtx.keylen t.fpeCtx.key = _
  rw [hv, hw, hk, this]
  rfl

theorem AtReset.lifecycleInv {t : State} (h : AtReset t) : LifecycleInv t := by
  constructor <;> simp [h.status, h.phase, h.preq]

theorem AtReset.freshInv {t : State} (h : AtReset t) : FreshInv t := by
  intro _ _
  simp [h.cmd, h.status, h.res, h.aff, h.fpeCtx_eq, AffCtx.cleared]

theorem AtReset.writtenInv {t : State} (h : AtReset t) : WrittenInv t :=
  ⟨fun _ => h.opa.1, fun i hi _ => (h.key i hi).1, fun i hi _ => (h.hex i hi).1⟩

theorem requestInv_of_none {t : State} (hq : t.preq = none) : RequestInv t := by
  constructor <;> simp [hq]

theorem affCtxInv_cleared : AffCtxInv AffCtx.cleared := by
  constructor <;> simp [AffCtx.cleared]

theorem fpeCtxInv_cleared : FpeCtxInv FpeCtx.cleared := by
  constructor <;> simp [FpeCtx.cleared]

/-- Settles O53: each invariant holds in every state after reset, and `State.reset` is one. -/
theorem invariantsHoldAtReset : Obligations.InvariantsHoldAtReset :=
  have h := atReset_reset
  ⟨h.lifecycleInv, affCtxInv_cleared, fpeCtxInv_cleared, requestInv_of_none h.preq, h.freshInv,
    h.writtenInv, rfl⟩

end Sys2Proof.Machine
end

section
/-! SUPPORT. `BUSY`, the phase, `PREQ`, the error fields and the latched command agree in every run
(10_state.md R24 to R27, R36, R37, R41). -/

namespace Sys2Proof.Machine

/-- A completed command with no request pending. -/
theorem Completed.lifecycleInv {code : ErrCode} {t : State} (hc : Completed code t)
    (hq : t.preq = none) : LifecycleInv t where
  busy := by simp [hc.busy, hc.phase]
  preq := by simp [hq, hc.phase]
  running := fun hp => absurd hc.phase hp
  err := by rw [hc.errCode]; exact hc.err
  latched := fun hp => absurd hc.phase hp

theorem LifecycleInv.preq_eq_none {s : State} (hi : LifecycleInv s) (hp : s.phase ≠ .waitPrim) :
    s.preq = none := by
  simpa [hp] using hi.preq

theorem lifecycleInv_unitStep {s t : State} (hi : LifecycleInv s) (h : unitStep s = .next t) :
    LifecycleInv t := by
  rcases unitStep_ends_or_calls h with ⟨-, rfl⟩ | ⟨hp, h⟩ | ⟨hp, dir, -, -, -, -, rfl⟩
  · exact hi
  · obtain ⟨code, hc⟩ := h.completed
    exact hc.lifecycleInv (h.frame.preq.trans (hi.preq_eq_none (by simp [hp])))
  · have hne : s.phase ≠ .idle := by simp [hp]
    exact ⟨by simp [hi.busy, hp], by simp, fun _ => hi.running hne, hi.err, fun _ => hi.latched hne⟩

theorem lifecycleInv_primStep {p : FpePrim} {s t : State} (hi : LifecycleInv s)
    (h : primStep p s = .next t) : LifecycleInv t := by
  rcases primStep_ends h with rfl | ⟨r, -, -, h⟩
  · exact hi
  · obtain ⟨code, hc⟩ := h.completed
    exact hc.lifecycleInv h.frame.preq

theorem lifecycleInv_busWrite {s : State} (off : Nat) (v : Word) (hi : LifecycleInv s) :
    LifecycleInv (busWrite off v s) := by
  rcases busWrite_cases off v s with h | ⟨hp, h⟩ | ⟨-, h⟩ | h | ⟨i, h⟩ | ⟨i, h⟩ <;> rw [h]
  · exact hi
  · have hq := hi.preq_eq_none (by simp [hp])
    constructor <;> simp [hq, latchOf]
  all_goals exact ⟨hi.busy, hi.preq, hi.running, hi.err, hi.latched⟩

/-- Settles O54, move by move: a command ends with `Completed`, calls the primitive, or is accepted in
`IDLE`, where no request is pending; every other move leaves the fields alone. -/
theorem stepKeepsTheLifecycle : Obligations.StepKeepsTheLifecycle := by
  refine stepWith_keeps ?_ ?_ ?_ ?_ ?_
  · exact fun _ _ _ hi => ⟨hi.busy, hi.preq, hi.running, hi.err, hi.latched⟩
  · exact fun s t => lifecycleInv_unitStep
  · exact fun s t => lifecycleInv_primStep
  · exact fun s off v => lifecycleInv_busWrite off v
  · exact fun s => (atReset_resetUnit s).lifecycleInv

end Sys2Proof.Machine
end

section
/-! SUPPORT. A pending request is the one that the context and the latched operand make
(43_fpe_scrambler.md R172, R182, R185). -/

namespace Sys2Proof.Machine

theorem RequestInv.preq_eq_none {s : State} (hi : RequestInv s) (hp : s.phase ≠ .waitPrim) :
    s.preq = none :=
  Option.eq_none_iff_forall_ne_some.2 fun r hr => hp (hi.waiting r hr)

/-- The call itself makes the request from the context and the latched operand, its checks passed. -/
theorem requestInv_startPrim {s : State} {dir : Dir} (hd : decode s.latch.cmd = .ok dir.command)
    (hv : s.fpeCtx.valid = true) (hw : s.latch.opaWr = true)
    (hr : s.latch.opa.toNat < 2 ^ s.fpeCtx.width.toNat) :
    RequestInv (startPrim (primRequest dir s.fpeCtx s.latch.opa) s) where
  waiting := fun _ _ => rfl
  context := fun _ _ => ⟨hv, hw, hr⟩
  request := by rintro _ ⟨⟩; rfl
  command := by
    rintro _ ⟨⟩
    rw [startPrim_latch, hd]
    cases dir <;> rfl

theorem requestInv_unitStep {s t : State} (hi : RequestInv s) (h : unitStep s = .next t) :
    RequestInv t := by
  rcases unitStep_ends_or_calls h with ⟨-, rfl⟩ | ⟨hp, h⟩ | ⟨-, dir, hd, hv, hw, hr, rfl⟩
  · exact hi
  · exact requestInv_of_none (h.frame.preq.trans (hi.preq_eq_none (by simp [hp])))
  · exact requestInv_startPrim hd hv hw hr

theorem requestInv_primStep {p : FpePrim} {s t : State} (hi : RequestInv s)
    (h : primStep p s = .next t) : RequestInv t := by
  rcases primStep_ends h with rfl | ⟨r, -, -, h⟩
  · exact hi
  · exact requestInv_of_none h.frame.preq

theorem requestInv_busWrite {s : State} (off : Nat) (v : Word) (hi : RequestInv s) :
    RequestInv (busWrite off v s) := by
  rcases busWrite_cases off v s with h | ⟨hp, h⟩ | ⟨-, h⟩ | h | ⟨i, h⟩ | ⟨i, h⟩ <;> rw [h]
  · exact hi
  · exact requestInv_of_none (hi.preq_eq_none (by simp [hp]))
  all_goals exact ⟨hi.waiting, hi.context, hi.request, hi.command⟩

/-- Settles O57, move by move: only the call of the primitive makes a request, every end of a command
leaves none, and no other move touches the context, the latch or the phase while one is pending. -/
theorem stepKeepsTheRequest : Obligations.StepKeepsTheRequest := by
  refine stepWith_keeps ?_ ?_ ?_ ?_ ?_
  · exact fun _ _ _ hi => ⟨hi.waiting, hi.context, hi.request, hi.command⟩
  · exact fun s t => requestInv_unitStep
  · exact fun s t => requestInv_primStep
  · exact fun s off v => requestInv_busWrite off v
  · exact fun s => requestInv_of_none (atReset_resetUnit s).preq

end Sys2Proof.Machine
end

section
/-! SUPPORT. `DONE = 0` in `IDLE` only before the first command (10_state.md R26). -/

namespace Sys2Proof.Machine

/-- The invariant speaks of `DONE = 0` in `IDLE`; a completion sets `DONE`. -/
theorem Completed.freshInv {code : ErrCode} {t : State} (hc : Completed code t) : FreshInv t :=
  fun _ hd => by simp [hc.done] at hd

theorem freshInv_of_busy {t : State} (hp : t.phase ≠ .idle) : FreshInv t := fun hi => absurd hi hp

theorem freshInv_unitStep {s t : State} (hi : FreshInv s) (h : unitStep s = .next t) :
    FreshInv t := by
  rcases unitStep_ends_or_calls h with ⟨-, rfl⟩ | ⟨-, h⟩ | ⟨-, dir, -, -, -, -, rfl⟩
  · exact hi
  · obtain ⟨code, hc⟩ := h.completed
    exact hc.freshInv
  · exact freshInv_of_busy (by simp)

theorem freshInv_primStep {p : FpePrim} {s t : State} (hi : FreshInv s)
    (h : primStep p s = .next t) : FreshInv t := by
  rcases primStep_ends h with rfl | ⟨r, -, -, h⟩
  · exact hi
  · obtain ⟨code, hc⟩ := h.completed
    exact hc.freshInv

theorem freshInv_busWrite {s : State} (off : Nat) (v : Word) (hi : FreshInv s) :
    FreshInv (busWrite off v s) := by
  rcases busWrite_cases off v s with h | ⟨-, h⟩ | ⟨hp, h⟩ | h | ⟨i, h⟩ | ⟨i, h⟩ <;> rw [h]
  · exact hi
  · exact freshInv_of_busy (by simp)
  · exact freshInv_of_busy hp
  all_goals exact hi

/-- Settles O58, move by move: what ends a command sets `DONE`, and what accepts or suspends one leaves
`IDLE`. -/
theorem stepKeepsFreshness : Obligations.StepKeepsFreshness := by
  refine stepWith_keeps ?_ ?_ ?_ ?_ ?_
  · exact fun _ _ _ hi => hi
  · exact fun s t => freshInv_unitStep
  · exact fun s t => freshInv_primStep
  · exact fun s off v => freshInv_busWrite off v
  · exact fun s => (atReset_resetUnit s).freshInv

end Sys2Proof.Machine
end

section
/-! SUPPORT. A register whose written flag is 0 holds 0 (10_state.md R31). -/

namespace Sys2Proof.Machine

/-- A command leaves the KEY registers and their flags, or clears the registers (`FPE_CLEAR`). -/
theorem exec_key_cases {i : Instr} {s t : State} (h : exec i s = .next t) :
    (t.key = s.key ∧ t.keyWr = s.keyWr) ∨ t.key = Vector.replicate 4 0 := by
  rw [exec_eq_perform] at h
  split at h
  · cases i <;> cases h <;> simp
  · cases h; simp

/-- A command leaves the HEX registers and their flags, or sets both flags (`HEX_ENC`). -/
theorem exec_hex_cases {i : Instr} {s t : State} (h : exec i s = .next t) :
    (t.hex = s.hex ∧ t.hexWr = s.hexWr) ∨ t.hexWr = #v[true, true] := by
  rw [exec_eq_perform] at h
  split at h
  · cases i <;> cases h <;> simp
  · cases h; simp

theorem unitStep_key_cases {s t : State} (h : unitStep s = .next t) :
    (t.key = s.key ∧ t.keyWr = s.keyWr) ∨ t.key = Vector.replicate 4 0 := by
  rcases unitStep_cases h with ⟨-, rfl⟩ | ⟨-, i, -, h⟩ | ⟨-, -, rfl⟩
  · simp
  · exact exec_key_cases h
  · simp

theorem unitStep_hex_cases {s t : State} (h : unitStep s = .next t) :
    (t.hex = s.hex ∧ t.hexWr = s.hexWr) ∨ t.hexWr = #v[true, true] := by
  rcases unitStep_cases h with ⟨-, rfl⟩ | ⟨-, i, -, h⟩ | ⟨-, -, rfl⟩
  · simp
  · exact exec_hex_cases h
  · simp

theorem writtenInv_unitStep {s t : State} (hi : WrittenInv s) (h : unitStep s = .next t) :
    WrittenInv t where
  opa := by
    obtain ⟨⟨ho, hw⟩, -⟩ := unitStep_opa_ovr h
    rw [ho, hw]
    exact hi.opa
  key := by
    rcases unitStep_key_cases h with ⟨hk, hw⟩ | hk
    · simpa only [hk, hw] using hi.key
    · simp [hk]
  hex := by
    rcases unitStep_hex_cases h with ⟨hx, hw⟩ | hw
    · simpa only [hx, hw] using hi.hex
    · intro i hlt hf
      have : i = 0 ∨ i = 1 := by omega
      rcases this with rfl | rfl <;> simp [hw] at hf

theorem Frame.writtenInv {s t : State} {w : Writes} (hf : Frame w s t) (hk : w.key = false)
    (hx : w.hex = false) (hi : WrittenInv s) : WrittenInv t where
  opa := by rw [hf.opa.1, hf.opa.2]; exact hi.opa
  key := by simpa only [hf.key hk] using hi.key
  hex := by simpa only [hf.hex hx] using hi.hex

theorem writtenInv_primStep {p : FpePrim} {s t : State} (hi : WrittenInv s)
    (h : primStep p s = .next t) : WrittenInv t := by
  rcases primStep_ends h with rfl | ⟨r, -, -, h⟩
  · exact hi
  · exact h.frame.writtenInv rfl rfl ⟨hi.opa, hi.key, hi.hex⟩

/-- A write sets the flag of its register, so a flag that is 0 belongs to another one. -/
theorem set_keeps_unset_zero {n : Nat} {regs : Vector Word n} {flags : Vector Bool n}
    (h : ∀ i (hi : i < n), flags[i] = false → regs[i] = 0) {j : Nat} (hj : j < n) (v : Word) :
    ∀ i (hi : i < n), (flags.set j true)[i] = false → (regs.set j v)[i] = 0 := by
  intro i hi hf
  by_cases hij : j = i
  · simp [hij] at hf
  · rw [Vector.getElem_set_ne hj hi hij] at hf ⊢
    exact h i hi hf

theorem writtenInv_busWrite {s : State} (off : Nat) (v : Word) (hi : WrittenInv s) :
    WrittenInv (busWrite off v s) := by
  rcases busWrite_cases off v s with h | ⟨-, h⟩ | ⟨-, h⟩ | h | ⟨i, h⟩ | ⟨i, h⟩ <;> rw [h]
  · exact hi
  · exact ⟨hi.opa, hi.key, hi.hex⟩
  · exact ⟨hi.opa, hi.key, hi.hex⟩
  · exact ⟨fun hf => by simp at hf, hi.key, hi.hex⟩
  · exact ⟨hi.opa, set_keeps_unset_zero hi.key i.isLt v, hi.hex⟩
  · exact ⟨hi.opa, hi.key, set_keeps_unset_zero hi.hex i.isLt v⟩

/-- Settles O59, move by move: a host write sets the flag with the register, `FPE_CLEAR` clears the
registers with the flags, `HEX_ENC` sets both flags, and no other move touches them. -/
theorem stepKeepsWrittenFlags : Obligations.StepKeepsWrittenFlags := by
  refine stepWith_keeps ?_ ?_ ?_ ?_ ?_
  · exact fun _ _ _ hi => ⟨hi.opa, hi.key, hi.hex⟩
  · exact fun s t => writtenInv_unitStep
  · exact fun s t => writtenInv_primStep
  · exact fun s off v => writtenInv_busWrite off v
  · exact fun s => (atReset_resetUnit s).writtenInv

end Sys2Proof.Machine
end

section
/-! SUPPORT. What commands neither read nor write: the `STATUS` flags, `OVR`, `OPA` and, but for
success, `RES` (10_state.md R28, R32, R33, R42). -/

namespace Sys2Proof.Machine

/-- A host's move clears `OVR` only where it is an acceptance. -/
theorem hostStep_clears_ovr {s t : State} (h : hostStep s = .next t) (hs : s.status.ovr = true)
    (ht : t.status.ovr = false) : s.phase = .idle ∧ t.phase = .exec := by
  have hne : t.status.ovr ≠ s.status.ovr := by simp [hs, ht]
  rcases hostStep_cases h with rfl | ⟨pos, rfl⟩ | ⟨x, v, rfl⟩ | ⟨off, v, rfl⟩
  · exact absurd rfl hne
  · exact absurd rfl hne
  · exact absurd rfl hne
  · rcases busWrite_cases off v s with hw | ⟨hp, hw⟩ | ⟨-, hw⟩ | hw | ⟨i, hw⟩ | ⟨i, hw⟩ <;>
      simp only [hw] at hne ht ⊢
    · exact absurd rfl hne
    · exact ⟨hp, rfl⟩
    · cases ht
    · exact absurd rfl hne
    · exact absurd rfl hne
    · exact absurd rfl hne

/-- Settles O8: the moves of the unit and the primitive keep `OVR`, and of the host's moves only an
acceptance clears it. -/
theorem overrunIsStickyUntilAcceptance : Obligations.OverrunIsStickyUntilAcceptance := by
  refine ⟨fun c s hi hb => ?_, fun c s hp => ?_, fun p s t h hs ht hreset => ?_⟩
  · simp [writeCmd_busy (hi.busy.1 hb)]
  · simp [writeCmd_idle hp]
  · rcases stepWith_cases h with ⟨-, h⟩ | ⟨-, h⟩ | ⟨-, h⟩ | ⟨-, rfl⟩ | ⟨hr, -⟩
    · obtain ⟨-, hovr⟩ := unitStep_opa_ovr h
      simp [ht, hs] at hovr
    · obtain ⟨-, hovr⟩ := primStep_opa_ovr h
      simp [ht, hs] at hovr
    · have hclears := hostStep_clears_ovr h
      exact hclears hs ht
    · simp [hs] at ht
    · exact absurd hr hreset

/-- What a command does reads no field of `STATUS`, and its completion fixes the code. -/
theorem perform_withStatus {i : Instr} {s t : State} (st : Status) (h : perform i s = .next t) :
    ∃ t', perform i { s with status := st } = .next t' ∧ { t' with status := t.status } = t ∧
      (t.phase = .idle → t'.status.errCode = t.status.errCode) := by
  cases i <;> cases h <;> exact ⟨_, rfl, rfl, by simp⟩

/-- Settles O13: the error causes and what a command does without one read no field of `STATUS`. -/
theorem commandsIgnoreStatusFlags : Obligations.CommandsIgnoreStatusFlags := by
  intro i s t st h
  have hcause : firstError i { s with status := st } = firstError i s :=
    firstError_congr i rfl rfl rfl
  rw [exec_eq_perform] at h ⊢
  rw [hcause]
  split at h
  · next hnone =>
    rw [if_pos hnone]
    exact perform_withStatus st h
  · next herr =>
    rw [if_neg herr]
    cases h
    exact ⟨_, rfl, rfl, fun _ => rfl⟩

/-- What a command does commutes with a host write to `OPA`: it reads the latched operand. -/
theorem perform_withOpa {i : Instr} {s t : State} (v : Word) (h : perform i s = .next t) :
    perform i { s with opa := v } = .next { t with opa := v } := by
  cases i <;> cases h <;> rfl

theorem exec_withOpa {i : Instr} {s t : State} (v : Word) (h : exec i s = .next t) :
    exec i { s with opa := v } = .next { t with opa := v } := by
  have hcause : firstError i { s with opa := v } = firstError i s :=
    firstError_congr i rfl rfl rfl
  rw [exec_eq_perform] at h ⊢
  rw [hcause]
  split at h
  · next hnone =>
    rw [if_pos hnone]
    exact perform_withOpa v h
  · next herr =>
    rw [if_neg herr]
    cases h
    rfl

/-- Settles O19: the moves of the unit and the primitive keep `OPA`, and `exec` commutes with a write
of it. -/
theorem operandRegisterBelongsToTheHost : Obligations.OperandRegisterBelongsToTheHost := by
  refine ⟨fun v s => ⟨rfl, rfl, rfl, rfl⟩, rfl, fun p s t h hhost hreset => ?_,
    fun i s t v => exec_withOpa v⟩
  rcases stepWith_cases h with ⟨-, h⟩ | ⟨-, h⟩ | ⟨hh, -⟩ | ⟨-, rfl⟩ | ⟨hr, -⟩
  · obtain ⟨hopa, -⟩ := unitStep_opa_ovr h
    exact hopa
  · obtain ⟨hopa, -⟩ := primStep_opa_ovr h
    exact hopa
  · exact absurd hh hhost
  · exact ⟨rfl, rfl⟩
  · exact absurd hr hreset

theorem busWrite_res (off : Nat) (v : Word) (s : State) : (busWrite off v s).res = s.res := by
  rcases busWrite_cases off v s with h | ⟨-, h⟩ | ⟨-, h⟩ | h | ⟨i, h⟩ | ⟨i, h⟩ <;> rw [h]
  rfl

theorem hostStep_res {s t : State} (h : hostStep s = .next t) : t.res = s.res := by
  rcases hostStep_cases h with rfl | ⟨pos, rfl⟩ | ⟨x, v, rfl⟩ | ⟨off, v, rfl⟩
  · rfl
  · rfl
  · rfl
  · exact busWrite_res off v s

/-- The unit's move changes `RES` only where it ends a command with success that writes it. -/
theorem unitStep_res_changed {s t : State} (h : unitStep s = .next t) (hne : t.res ≠ s.res) :
    s.phase = .exec ∧ Completed .none t ∧ (latchedWrites s.latch).res = true := by
  rcases unitStep_ends_or_calls h with ⟨-, rfl⟩ | ⟨hp, h⟩ | ⟨-, dir, -, -, -, -, rfl⟩
  · exact absurd rfl hne
  · exact ⟨hp, h.res_changed hne⟩
  · exact absurd rfl hne

/-- Settles O20: a command that ends with an error writes nothing, the unit's move ends the latched
command, and the primitive's ends the FPE scramble that the request belongs to. -/
theorem resultWrittenOnlyOnSuccess : Obligations.ResultWrittenOnlyOnSuccess := by
  intro p s t hi h hreset hne
  rcases stepWith_cases h with ⟨-, h⟩ | ⟨-, h⟩ | ⟨-, h⟩ | ⟨-, rfl⟩ | ⟨hr, -⟩
  · obtain ⟨hp, hc, hw⟩ := unitStep_res_changed h hne
    have hbusy : s.phase ≠ .idle := by simp [show s.phase = .exec from hp]
    exact ⟨hbusy, hc, latchedWrites_res hw⟩
  · rcases primStep_ends h with rfl | ⟨r, hp, hr, h⟩
    · exact absurd rfl hne
    · obtain ⟨hc, -⟩ := h.res_changed hne
      have hbusy : s.phase ≠ .idle := by simp [show s.phase = .waitPrim from hp]
      refine ⟨hbusy, hc, _, hi.command r hr, ?_⟩
      cases r.dir <;> simp
  · exact absurd (hostStep_res h) hne
  · exact absurd rfl hne
  · exact absurd hr hreset

end Sys2Proof.Machine
end

section
/-! SUPPORT. The register window: the offsets of the registers, what a read shows, and the fields of
`STATUS` (20_memory.md R52; 10_state.md R24, R29, R30). -/

namespace Sys2Proof.Machine

theorem busRead_offset (r : Reg) (s : State) : busRead r.offset s = readReg r s := by
  simp [busRead, Reg.at?_offset]

theorem busWrite_offset (r : Reg) (v : Word) (s : State) : busWrite r.offset v s = writeReg r v s := by
  simp [busWrite, Reg.at?_offset]

/-- Settles O22: each register stands at its offset, where `readReg` and `writeReg` give the effect. -/
theorem keyAndHexWritesStore : Obligations.KeyAndHexWritesStore := by
  intro v s
  refine ⟨busRead_offset .cmd s, busRead_offset .res s, fun i => busRead_offset (.hex i) s,
    fun i => busWrite_offset (.key i) v s, fun i => ⟨busWrite_offset (.hex i) v s, ?_⟩⟩
  change busRead (Reg.hex i).offset (busWrite (Reg.hex i).offset v s) = v
  rw [busRead_offset, busWrite_offset]
  simp [readReg, writeReg]

/-- Settles O27, register by register: `STATUS` shows no more of a context than its validity, width and
key length, and a KEY register reads 0. -/
theorem secretsAreNotReadable : Obligations.SecretsAreNotReadable := by
  intro s off keys salt inv key
  refine busRead_congr fun r _ => ?_
  cases r with
  | cmd => rfl
  | status => rfl
  | opa => rfl
  | res => rfl
  | key i => rfl
  | hex i => rfl

theorem ErrCode.number_le (c : ErrCode) : c.number ≤ 10 := by
  cases c <;> decide

/-- `STATUS` as the sum of its fields, each at the weight of its lowest bit (10_state.md R24). -/
theorem statusWord_toNat (s : State) : (statusWord s).toNat =
    s.fpeCtx.shownKeylen.toNat * 2 ^ 32 + (s.fpeCtx.shownWidth.toNat * 2 ^ 24 +
    (s.affCtx.shownWidth.toNat * 2 ^ 16 + (s.status.errCode.number * 2 ^ 8 +
    (s.fpeCtx.valid.toNat * 2 ^ 5 + (s.affCtx.valid.toNat * 2 ^ 4 + (s.status.ovr.toNat * 2 ^ 3 +
    (s.status.err.toNat * 2 ^ 2 + (s.status.done.toNat * 2 + s.status.busy.toNat)))))))) := by
  have hcode : s.status.errCode.number < 2 ^ 4 := by
    have := s.status.errCode.number_le
    omega
  unfold statusWord
  simp only [toNat_append_add, BitVec.toNat_ofBool, BitVec.toNat_ofNat, Nat.mod_eq_of_lt hcode]
  omega

theorem AffCtx.shownWidth_toNat (c : AffCtx) :
    c.shownWidth.toNat = if c.valid then c.width.toNat else 0 := by
  unfold AffCtx.shownWidth
  split <;> rfl

theorem FpeCtx.shownWidth_toNat (c : FpeCtx) :
    c.shownWidth.toNat = if c.valid then c.width.toNat else 0 := by
  unfold FpeCtx.shownWidth
  split <;> rfl

/-- The six bits of `FPE_KLEN` hold every legal key length (10_state.md R30). -/
theorem FpeCtxInv.shownKeylen_toNat {c : FpeCtx} (h : FpeCtxInv c) :
    c.shownKeylen.toNat = if c.valid then c.keylen.toNat else 0 := by
  unfold FpeCtx.shownKeylen
  split
  · next hv =>
    have hk := h.keylen hv
    simp only [List.mem_cons, List.not_mem_nil, or_false] at hk
    rw [BitVec.toNat_setWidth]
    omega
  · rfl

/-- Each field of `STATUS` read back from the word, the reserved ones 0 (10_state.md R24). -/
theorem statusWord_fields (s : State) :
    bits (statusWord s) 0 0 = s.status.busy.toNat ∧ bits (statusWord s) 1 1 = s.status.done.toNat ∧
    bits (statusWord s) 2 2 = s.status.err.toNat ∧ bits (statusWord s) 3 3 = s.status.ovr.toNat ∧
    bits (statusWord s) 4 4 = s.affCtx.valid.toNat ∧
    bits (statusWord s) 5 5 = s.fpeCtx.valid.toNat ∧ bits (statusWord s) 7 6 = 0 ∧
    bits (statusWord s) 11 8 = s.status.errCode.number ∧ bits (statusWord s) 15 12 = 0 ∧
    bits (statusWord s) 23 16 = s.affCtx.shownWidth.toNat ∧
    bits (statusWord s) 31 24 = s.fpeCtx.shownWidth.toNat ∧
    bits (statusWord s) 37 32 = s.fpeCtx.shownKeylen.toNat ∧ bits (statusWord s) 63 38 = 0 := by
  have hbusy := s.status.busy.toNat_lt
  have hdone := s.status.done.toNat_lt
  have herr := s.status.err.toNat_lt
  have hovr := s.status.ovr.toNat_lt
  have haff := s.affCtx.valid.toNat_lt
  have hfpe := s.fpeCtx.valid.toNat_lt
  have hcode := s.status.errCode.number_le
  have haffW := s.affCtx.shownWidth.isLt
  have hfpeW := s.fpeCtx.shownWidth.isLt
  have hklen := s.fpeCtx.shownKeylen.isLt
  simp only [bits, statusWord_toNat]
  omega

/-- A field that mirrors a context shows 0 or a legal value of the context. -/
theorem shown_mem {valid : Bool} {x : Nat} {legalValues : List Nat}
    (h : valid = true → x ∈ legalValues) : (if valid then x else 0) ∈ 0 :: legalValues := by
  split
  · next hv => exact List.mem_cons_of_mem _ (h hv)
  · exact List.mem_cons_self

/-- Settles O26: the word's fields are the stored ones and the mirrors, which the invariants of the
contexts hold to their legal values. -/
theorem statusFieldsAtTheirPlaces : Obligations.StatusFieldsAtTheirPlaces := by
  refine ⟨by decide, fun s => ?_⟩
  obtain ⟨hbusy, hdone, herr, hovr, haff, hfpe, hr6, hcode, hr12, haffW, hfpeW, hklen, hr38⟩ :=
    statusWord_fields s
  rw [AffCtx.shownWidth_toNat] at haffW
  rw [FpeCtx.shownWidth_toNat] at hfpeW
  refine ⟨rfl, fun _ => rfl, ⟨hbusy, hdone, herr, hovr, haff, hfpe, hr6, hcode,
    hcode ▸ s.status.errCode.number_le, hr12, haffW, hfpeW, hr38⟩, fun ha => ?_, fun hf => ?_⟩
  · exact haffW ▸ shown_mem ha.width
  · rw [hf.shownKeylen_toNat] at hklen
    exact ⟨hklen, hfpeW ▸ shown_mem hf.width, hklen ▸ shown_mem hf.keylen⟩

end Sys2Proof.Machine
end

section
/-! SUPPORT. Key material (10_state.md R34, R39) reaches only key material: every move but the
primitive's does the same, up to key material, in a state and in that state with the keys wiped. -/

namespace Sys2Proof.Machine

/-- An outcome without its key material: `SameButKeys` is equality of these (`sameButKeys_iff`). -/
def hideKeys : Out → Out
  | .next t => .next t.withoutKeys
  | .fault e => .fault e
  | .refused e => .refused e

theorem hideKeys_next {s s' : State} (h : s.withoutKeys = s'.withoutKeys) :
    hideKeys (.next s) = hideKeys (.next s') :=
  congrArg Host.Outcome.next h

theorem sameButKeys_iff (o o' : Out) : SameButKeys o o' ↔ hideKeys o = hideKeys o' := by
  cases o <;> cases o' <;> simp [SameButKeys, hideKeys]

@[simp] theorem withoutKeys_withoutKeys (s : State) : s.withoutKeys.withoutKeys = s.withoutKeys := by
  simp [State.withoutKeys, Function.comp_def]

theorem withoutKeys_phase (s : State) : s.withoutKeys.phase = s.phase := rfl
theorem withoutKeys_latch_cmd (s : State) : s.withoutKeys.latch.cmd = s.latch.cmd := rfl
theorem withoutKeys_host (s : State) : s.withoutKeys.host = s.host := rfl
theorem withoutKeys_sched (s : State) : s.withoutKeys.sched = s.sched := rfl

/-- The causes read the written flags of the KEY registers, not the keys. -/
theorem firstError_withoutKeys (i : Instr) (s : State) :
    firstError i s.withoutKeys = firstError i s := by
  cases i <;> rfl

theorem complete_withoutKeys (code : ErrCode) (s : State) :
    (complete code s.withoutKeys).withoutKeys = (complete code s).withoutKeys := by
  simp [complete, State.withoutKeys, Function.comp_def]

/-- What a command takes from key material goes into key material: a load's into the key of the context,
a scramble's into the key of the request. -/
theorem perform_withoutKeys (i : Instr) (s : State) :
    hideKeys (perform i s.withoutKeys) = hideKeys (perform i s) := by
  cases i with
  | fpeLoad n k =>
    simp [perform, succeed, hideKeys, complete, State.withoutKeys, Function.comp_def, FpeCtx.ofKey]
  | fpeScr | fpeUnscr => simp [perform, hideKeys, startPrim, primRequest, State.withoutKeys]
  | _ => simp [perform, succeed, hideKeys, complete, State.withoutKeys, Function.comp_def]

theorem exec_withoutKeys (i : Instr) (s : State) :
    hideKeys (exec i s.withoutKeys) = hideKeys (exec i s) := by
  rw [exec_eq_perform, exec_eq_perform, firstError_withoutKeys]
  split
  · exact perform_withoutKeys i s
  · exact hideKeys_next (complete_withoutKeys _ s)

theorem unitStep_withoutKeys (s : State) :
    hideKeys (unitStep s.withoutKeys) = hideKeys (unitStep s) := by
  unfold unitStep
  rw [withoutKeys_phase, withoutKeys_latch_cmd]
  split
  · split
    · exact exec_withoutKeys _ s
    · exact hideKeys_next (complete_withoutKeys _ s)
  · exact hideKeys_next (withoutKeys_withoutKeys s)
  · exact hideKeys_next (withoutKeys_withoutKeys s)

/-- A KEY register reads 0, and `STATUS` shows no key (10_state.md R34). -/
theorem readReg_withoutKeys (r : Reg) (s : State) : readReg r s.withoutKeys = readReg r s := by
  cases r <;> rfl

theorem busRead_withoutKeys (off : Nat) (s : State) : busRead off s.withoutKeys = busRead off s :=
  busRead_congr fun r _ => readReg_withoutKeys r s

/-- A host write stores no key but into the KEY registers, an acceptance none but into the latch. -/
theorem writeReg_withoutKeys (r : Reg) (v : Word) (s : State) :
    (writeReg r v s.withoutKeys).withoutKeys = (writeReg r v s).withoutKeys := by
  cases r with
  | cmd =>
    by_cases hp : s.phase = .idle <;>
      simp [writeReg, writeCmd, accept, latchOf, State.withoutKeys, Function.comp_def, hp]
  | _ => simp [writeReg, State.withoutKeys, Function.comp_def]

theorem busWrite_withoutKeys (off : Nat) (v : Word) (s : State) :
    (busWrite off v s.withoutKeys).withoutKeys = (busWrite off v s).withoutKeys := by
  unfold busWrite
  split
  · exact writeReg_withoutKeys _ v s
  · exact withoutKeys_withoutKeys s

/-- What the host agent becomes is no key material. -/
theorem hideKeys_withHost (h : HostAgent) {s s' : State} (hs : s.withoutKeys = s'.withoutKeys) :
    hideKeys (.next { s with host := h }) = hideKeys (.next { s' with host := h }) :=
  hideKeys_next (congrArg (fun t : State => { t with host := h }) hs)

/-- Whether an access goes through depends on its place alone. -/
theorem access_withoutKeys (l : Loc) {f g : Nat → Out}
    (h : ∀ off, hideKeys (f off) = hideKeys (g off)) :
    hideKeys (access l f) = hideKeys (access l g) := by
  unfold access
  split
  · rfl
  · split_ifs
    · rfl
    · exact h _
    · rfl

theorem jump_withoutKeys (l : Nat) (s : State) :
    hideKeys (jump l s.withoutKeys) = hideKeys (jump l s) := by
  unfold jump
  rw [withoutKeys_host]
  split
  · exact hideKeys_withHost _ (withoutKeys_withoutKeys s)
  · rfl

theorem hostStmt_withoutKeys (st : HostStmt) (s : State) :
    hideKeys (hostStmt st s.withoutKeys) = hideKeys (hostStmt st s) := by
  cases st with
  | wr l src =>
    exact access_withoutKeys l fun off => hideKeys_withHost _ (busWrite_withoutKeys off _ s)
  | rd l x =>
    refine access_withoutKeys l fun off => ?_
    rw [busRead_withoutKeys]
    exact hideKeys_withHost _ (withoutKeys_withoutKeys s)
  | label l => exact hideKeys_withHost _ (withoutKeys_withoutKeys s)
  | bnz x mask l =>
    by_cases hb : varGet x s.host.vars &&& mask = 0
    · simp only [hostStmt, withoutKeys_host, hb, if_true]
      exact hideKeys_withHost _ (withoutKeys_withoutKeys s)
    · simp only [hostStmt, withoutKeys_host, hb, if_false]
      exact jump_withoutKeys l s

theorem hostStep_withoutKeys (s : State) :
    hideKeys (hostStep s.withoutKeys) = hideKeys (hostStep s) := by
  unfold hostStep
  rw [withoutKeys_host]
  split
  · exact hostStmt_withoutKeys _ s
  · exact hideKeys_next (withoutKeys_withoutKeys s)

theorem move_withoutKeys (p : FpePrim) {m : Move} (hm : m ≠ .prim) (s : State) :
    hideKeys (move p m s.withoutKeys) = hideKeys (move p m s) := by
  cases m with
  | host => exact hostStep_withoutKeys s
  | unit => exact unitStep_withoutKeys s
  | prim => exact absurd rfl hm
  | lateAnswer ld a => exact hideKeys_next (withoutKeys_withoutKeys s)
  | reset => rfl

theorem stepWith_withoutKeys (p : FpePrim) {s : State} (hs : s.sched.head? ≠ some .prim) :
    hideKeys (stepWith p s.withoutKeys) = hideKeys (stepWith p s) := by
  unfold stepWith
  rw [withoutKeys_sched]
  split
  · exact unitStep_withoutKeys s
  · next m rest hm => exact move_withoutKeys p (by simpa [hm] using hs) { s with sched := rest }

/-- Settles O28: both states step as their common state without key material does. -/
theorem keyMaterialReachesOnlyThePrimitive : Obligations.KeyMaterialReachesOnlyThePrimitive := by
  intro p s s' hss hprim
  have hsched : s'.sched = s.sched := (congrArg State.sched hss).symm
  rw [sameButKeys_iff]
  calc hideKeys (stepWith p s)
      = hideKeys (stepWith p s.withoutKeys) := (stepWith_withoutKeys p hprim).symm
    _ = hideKeys (stepWith p s'.withoutKeys) := by rw [hss]
    _ = hideKeys (stepWith p s') := stepWith_withoutKeys p (hsched ▸ hprim)

end Sys2Proof.Machine
end

section
/-! SUPPORT. A command in flight (20_memory.md R61, 70_reset_and_hazards.md R243): every step that
leaves it in flight leaves `RES` and the contexts, and every such step of the unit or the primitive
leaves the HEX registers too. -/

namespace Sys2Proof.Machine

theorem Ends.phase {w : Writes} {s t : State} (h : Ends w s t) : t.phase = .idle := by
  obtain ⟨code, hc⟩ := h.completed
  exact hc.phase

/-- A move of the unit that does not end the command in flight is none, or calls the primitive. -/
theorem unitStep_inFlight {s t : State} (h : unitStep s = .next t) (ht : t.phase ≠ .idle) :
    t = s ∨ ∃ r, t = startPrim r s := by
  rcases unitStep_ends_or_calls h with ⟨-, rfl⟩ | ⟨-, h⟩ | ⟨-, dir, -, -, -, -, rfl⟩
  · exact .inl rfl
  · exact absurd h.phase ht
  · exact .inr ⟨_, rfl⟩

/-- The primitive has no move that does not end the command in flight. -/
theorem primStep_inFlight {p : FpePrim} {s t : State} (h : primStep p s = .next t)
    (ht : t.phase ≠ .idle) : t = s := by
  rcases primStep_ends h with rfl | ⟨r, -, -, h⟩
  · rfl
  · exact absurd h.phase ht

/-- The host writes no context: the unit's commands alone do (10_state.md R38, R39). -/
theorem busWrite_contexts (off : Nat) (v : Word) (s : State) :
    (busWrite off v s).affCtx = s.affCtx ∧ (busWrite off v s).fpeCtx = s.fpeCtx := by
  rcases busWrite_cases off v s with h | ⟨-, h⟩ | ⟨-, h⟩ | h | ⟨i, h⟩ | ⟨i, h⟩ <;> rw [h] <;>
    exact ⟨rfl, rfl⟩

theorem hostStep_contexts {s t : State} (h : hostStep s = .next t) :
    t.affCtx = s.affCtx ∧ t.fpeCtx = s.fpeCtx := by
  rcases hostStep_cases h with rfl | ⟨pos, rfl⟩ | ⟨x, v, rfl⟩ | ⟨off, v, rfl⟩
  · exact ⟨rfl, rfl⟩
  · exact ⟨rfl, rfl⟩
  · exact ⟨rfl, rfl⟩
  · exact busWrite_contexts off v s

/-- Settles O17, move by move: the unit and the primitive write only in the move that ends the command,
the host writes neither `RES` nor a context, and a reset leaves no command in flight. -/
theorem resultsHoldUntilCompletion : Obligations.ResultsHoldUntilCompletion := by
  intro p s t h _ ht
  rcases stepWith_cases h with ⟨-, h⟩ | ⟨-, h⟩ | ⟨hhost, h⟩ | ⟨-, rfl⟩ | ⟨-, rfl⟩
  · rcases unitStep_inFlight h ht with rfl | ⟨r, rfl⟩ <;> exact ⟨rfl, rfl, rfl, fun _ => ⟨rfl, rfl⟩⟩
  · obtain rfl := primStep_inFlight h ht
    exact ⟨rfl, rfl, rfl, fun _ => ⟨rfl, rfl⟩⟩
  · obtain ⟨haff, hfpe⟩ := hostStep_contexts h
    have hres := hostStep_res h
    exact ⟨hres, haff, hfpe, fun hne => absurd hhost hne⟩
  · exact ⟨rfl, rfl, rfl, fun _ => ⟨rfl, rfl⟩⟩
  · exact absurd rfl ht

end Sys2Proof.Machine
end

section
/-! SUPPORT. Which host accesses there are: what each access does by where it goes and how wide it is
(20_memory.md R51, R53, R54). -/

namespace Sys2Proof.Machine

theorem busRead_unmapped {off : Nat} (h : Reg.at? off = none) (s : State) : busRead off s = 0 := by
  simp [busRead, h]

theorem busWrite_unmapped {off : Nat} (h : Reg.at? off = none) (v : Word) (s : State) :
    busWrite off v s = s := by
  simp [busWrite, h]

/-- Settles O21: no register stands at the unmapped offsets, and `readReg` and `writeReg` give the
effect at the others. -/
theorem readOnlyWriteOnlyAndUnmappedAccesses : Obligations.ReadOnlyWriteOnlyAndUnmappedAccesses := by
  intro v s
  refine ⟨fun off h => ?_, fun off h => ?_, fun off h => ?_⟩
  · have hnone : Reg.at? off = none := by revert off; decide
    exact ⟨busRead_unmapped hnone s, busWrite_unmapped hnone v s⟩
  · have hreg : off = Reg.status.offset ∨ off = Reg.res.offset := by
      simpa [Reg.offset] using h
    rcases hreg with rfl | rfl
    · exact busWrite_offset .status v s
    · exact busWrite_offset .res v s
  · have hkey : ∃ i, off = (Reg.key i).offset := by revert off; decide
    obtain ⟨i, rfl⟩ := hkey
    exact busRead_offset (.key i) s

/-- Every register stands in the window, at a multiple of 8 (20_memory.md R52). -/
theorem Reg.offset_aligned (r : Reg) : r.offset < unitSize ∧ r.offset % 8 = 0 := by
  cases r with
  | cmd | status | opa | res => decide
  | key i | hex i => simp only [Reg.offset, unitSize]; omega

/-- An access in the window goes through where it is an aligned 64-bit one, and else is refused
(20_memory.md R53). -/
theorem access_off {off : Nat} (h : off < unitSize) (bytes : Nat) (f : Nat → Out) :
    access (.off off bytes) f =
      if bytes = 8 ∧ off % 8 = 0 then f off else .refused .narrowAccess := by
  simp [access, Loc.place, Nat.not_le.2 h]

theorem access_off_outside {off : Nat} (h : unitSize ≤ off) (bytes : Nat) (f : Nat → Out) :
    access (.off off bytes) f = .fault .outsideWindow := by
  simp [access, Loc.place, h]

/-- The host assembly's `wr` and `rd` of a register are accesses at its offset (30_encoding.md R84). -/
theorem access_reg (r : Reg) (f : Nat → Out) : access (.reg r) f = f r.offset := by
  obtain ⟨hlt, hal⟩ := r.offset_aligned
  calc access (.reg r) f = access (.off r.offset 8) f := rfl
    _ = f r.offset := by simp [access_off hlt, hal]

/-- At or above `UNIT_BASE` only the offset counts (20_memory.md R51). -/
theorem access_addr {a : Nat} (h : Config.unitBase ≤ a) (bytes : Nat) (f : Nat → Out) :
    access (.addr a bytes) f = access (.off (a - Config.unitBase) bytes) f := by
  simp [access, Loc.place, Nat.not_lt.2 h]

theorem access_addr_below {a : Nat} (h : a < Config.unitBase) (bytes : Nat) (f : Nat → Out) :
    access (.addr a bytes) f = .fault .outsideWindow := by
  simp [access, Loc.place, h]

theorem access_addr_outside {a : Nat} (h : a < Config.unitBase ∨ unitSize ≤ a - Config.unitBase)
    (bytes : Nat) (f : Nat → Out) : access (.addr a bytes) f = .fault .outsideWindow := by
  by_cases hbelow : a < Config.unitBase
  · exact access_addr_below hbelow bytes f
  · rw [access_addr (Nat.not_lt.1 hbelow), access_off_outside (h.resolve_left hbelow)]

/-- Settles O23: the host's writes and reads are accesses, at a register's offset or at the one
named. -/
theorem onlyAlignedWordAccessesAreDefined : Obligations.OnlyAlignedWordAccessesAreDefined := by
  refine ⟨fun r hr s x src => ?_, fun s off bytes x src hoff => ?_⟩
  · have hmap : r.1.offset = r.2 := by revert r; decide
    simp only [hostStmt, access_reg, hmap, and_self]
  · simp only [hostStmt, access_off hoff]
    split <;> exact ⟨rfl, rfl⟩

/-- Settles O24: an access at an address is the access at its offset from `UNIT_BASE`. -/
theorem windowStartsAtUnitBase : Obligations.WindowStartsAtUnitBase := fun _ _ bytes _ _ =>
  ⟨fun h => access_addr h bytes _, fun h => access_addr h bytes _,
    fun h => ⟨access_addr_outside h bytes _, access_addr_outside h bytes _⟩⟩

end Sys2Proof.Machine
end

section
/-! SUPPORT. The command word and its table (30_encoding.md R70 to R79, R85): which opcode's words a
value is one of, for the decoder, for the predicate `legal` and for the masks of the opcode table. -/

namespace Sys2Proof

/-! ### Opcodes and the fields they use -/

@[simp] theorem Opcode.ofNat?_toNat (op : Opcode) : Opcode.ofNat? op.toNat = some op := by
  cases op <;> rfl

theorem Opcode.toNat_of_ofNat? {n : Nat} {op : Opcode} (h : Opcode.ofNat? n = some op) :
    n = op.toNat := by
  unfold Opcode.ofNat? at h
  split at h <;> cases h <;> rfl

theorem Opcode.ofNat?_eq_some_iff {n : Nat} {op : Opcode} :
    Opcode.ofNat? n = some op ↔ n = op.toNat :=
  ⟨Opcode.toNat_of_ofNat?, fun h => h ▸ op.ofNat?_toNat⟩

theorem Opcode.toNat_le (op : Opcode) : op.toNat ≤ 0xB := by
  cases op <;> decide

/-- 0x0 to 0xB are the opcodes (30_encoding.md R79). -/
theorem Opcode.exists_toNat {n : Nat} (h : n ≤ 0xB) : ∃ op : Opcode, n = op.toNat := by
  have hsome : (Opcode.ofNat? n).isSome = true := by revert h; revert n; decide
  obtain ⟨op, hop⟩ := Option.isSome_iff_exists.1 hsome
  exact ⟨op, Opcode.toNat_of_ofNat? hop⟩

/-- The column "uses WIDTH" as the predicate of 30_encoding.md R78 writes it. -/
theorem Opcode.usesWidth_iff (op : Opcode) :
    op.usesWidth = true ↔ op.toNat ∈ [0x1, 0x2, 0x6, 0x7, 0x8] := by
  cases op <;> decide

/-- The column "uses KLEN" as the predicate of 30_encoding.md R78 writes it. -/
theorem Opcode.usesKlen_iff (op : Opcode) : op.usesKlen = true ↔ op.toNat = 0x8 := by
  cases op <;> decide

theorem Opcode.usesWidth_of_usesKlen {op : Opcode} (h : op.usesKlen = true) :
    op.usesWidth = true := by
  rw [Opcode.usesKlen_iff] at h
  simp [Opcode.usesWidth_iff, h]

/-! ### A command and its fields -/

/-- Well-formedness is the size of the two fields (30_encoding.md R72, R73). -/
theorem Instr.wellFormed_iff (i : Instr) :
    i.wellFormed = true ↔ i.widthField < 256 ∧ i.klenField < 64 := by
  cases i <;>
    simp [Instr.wellFormed, Instr.widthField, Instr.klenField, widthFits, klenFits, Nat.lt_succ_iff]

@[simp] theorem Instr.instr_opcode (i : Instr) : i.opcode.instr i.widthField i.klenField = i := by
  cases i <;> rfl

theorem Instr.widthField_eq_zero {i : Instr} (h : i.opcode.usesWidth = false) :
    i.widthField = 0 := by
  cases i with
  | inv _ | affLoad _ | hexEnc _ | hexDec _ | fpeLoad _ _ => cases h
  | nop | affScr | affUnscr | affClear | fpeScr | fpeUnscr | fpeClear => rfl

theorem Instr.klenField_eq_zero {i : Instr} (h : i.opcode.usesKlen = false) :
    i.klenField = 0 := by
  cases i with
  | fpeLoad _ _ => cases h
  | _ => rfl

@[simp] theorem Opcode.opcode_instr (op : Opcode) (w k : Nat) : (op.instr w k).opcode = op := by
  cases op <;> rfl

theorem Opcode.widthField_instr {op : Opcode} {w : Nat} (k : Nat)
    (h : op.usesWidth = false → w = 0) : (op.instr w k).widthField = w := by
  cases op with
  | inv | affLoad | hexEnc | hexDec | fpeLoad => rfl
  | nop | affScr | affUnscr | affClear | fpeScr | fpeUnscr | fpeClear => exact (h rfl).symm

theorem Opcode.klenField_instr {op : Opcode} (w : Nat) {k : Nat}
    (h : op.usesKlen = false → k = 0) : (op.instr w k).klenField = k := by
  cases op with
  | fpeLoad => rfl
  | _ => exact (h rfl).symm

/-! ### The words of an opcode -/

/-- The value `c` is a word of the opcode: its `OP` field names it, and every bit outside the fields
it uses is 0 (30_encoding.md R74, R75, R77). -/
structure Opcode.Matches (op : Opcode) (c : Word) : Prop where
  opcode : bits c 3 0 = op.toNat
  reserved : bits c 63 18 = 0
  width : op.usesWidth = false → bits c 11 4 = 0
  klen : op.usesKlen = false → bits c 17 12 = 0

/-- The decoder reads the words of the opcodes, each with its own fields. -/
theorem decode_eq_ok_iff_matches (c : Word) (i : Instr) :
    decode c = .ok i ↔
      ∃ op : Opcode, op.Matches c ∧ op.instr (bits c 11 4) (bits c 17 12) = i := by
  simp only [decode_eq_ok_iff, Opcode.ofNat?_eq_some_iff]
  constructor
  · rintro ⟨hr, op, ho, hw, hk, hi⟩
    exact ⟨op, ⟨ho, hr, hw, hk⟩, hi⟩
  · rintro ⟨op, ⟨ho, hr, hw, hk⟩, hi⟩
    exact ⟨hr, op, ho, hw, hk, hi⟩

/-- The fields of a well-formed command stand in its word (30_encoding.md R70). -/
theorem encode_fields {i : Instr} (h : i.wellFormed = true) :
    bits (encode i) 3 0 = i.opcode.toNat ∧ bits (encode i) 11 4 = i.widthField ∧
      bits (encode i) 17 12 = i.klenField := by
  obtain ⟨hw, hk⟩ := i.wellFormed_iff.1 h
  have hop := i.opcode.toNat_le
  simp only [encode, bits_commandWord_op, bits_commandWord_width, bits_commandWord_klen]
  exact ⟨Nat.mod_eq_of_lt (by omega), Nat.mod_eq_of_lt hw, Nat.mod_eq_of_lt hk⟩

theorem matches_encode {i : Instr} (h : i.wellFormed = true) : i.opcode.Matches (encode i) := by
  obtain ⟨ho, hw, hk⟩ := encode_fields h
  exact ⟨ho, bits_commandWord_reserved _ _ _, fun hu => hw.trans (Instr.widthField_eq_zero hu),
    fun hu => hk.trans (Instr.klenField_eq_zero hu)⟩

/-- Settles O1: a well-formed command's word is one of its opcode's and holds the command's
fields. -/
theorem decodeUndoesEncode : Obligations.DecodeUndoesEncode := by
  intro i h
  obtain ⟨-, hw, hk⟩ := encode_fields h
  refine (decode_eq_ok_iff_matches _ _).2 ⟨i.opcode, matches_encode h, ?_⟩
  rw [hw, hk, Instr.instr_opcode]

theorem Opcode.Matches.wellFormed {op : Opcode} {c : Word} (h : op.Matches c) :
    (op.instr (bits c 11 4) (bits c 17 12)).wellFormed = true := by
  rw [Instr.wellFormed_iff, op.widthField_instr _ h.width, op.klenField_instr _ h.klen]
  exact ⟨Nat.mod_lt _ (by decide), Nat.mod_lt _ (by decide)⟩

/-- A word of the opcode holds nothing but the opcode and the fields of its command. -/
theorem Opcode.Matches.encode_eq {op : Opcode} {c : Word} (h : op.Matches c) :
    encode (op.instr (bits c 11 4) (bits c 17 12)) = c := by
  obtain ⟨ho, hw, hk⟩ := encode_fields h.wellFormed
  rw [op.opcode_instr] at ho
  rw [op.widthField_instr _ h.width] at hw
  rw [op.klenField_instr _ h.klen] at hk
  apply BitVec.eq_of_toNat_eq
  rw [toNat_eq_fields c, toNat_eq_fields (encode _), ho, hw, hk, h.opcode, h.reserved, encode,
    bits_commandWord_reserved]

/-- Settles O2: what decodes is a word of an opcode, and such a word is made of its fields. -/
theorem encodeUndoesDecode : Obligations.EncodeUndoesDecode := by
  intro c i h
  obtain ⟨op, hm, rfl⟩ := (decode_eq_ok_iff_matches _ _).1 h
  exact ⟨hm.wellFormed, hm.encode_eq⟩

/-! ### Legality -/

/-- The predicate of 30_encoding.md R78: the value is a word of some opcode. -/
theorem legal_iff_matches (c : Word) : legal c = true ↔ ∃ op : Opcode, op.Matches c := by
  simp only [legal, decide_eq_true_eq]
  constructor
  · rintro ⟨hr, hop, hw, hk⟩
    obtain ⟨op, ho⟩ := Opcode.exists_toNat hop
    rw [ho, ← op.usesWidth_iff] at hw
    rw [ho, ← op.usesKlen_iff] at hk
    exact ⟨op, ho, hr, fun hu => hw.resolve_left (by simp [hu]),
      fun hu => hk.resolve_left (by simp [hu])⟩
  · rintro ⟨op, ho, hr, hw, hk⟩
    rw [ho, ← op.usesWidth_iff, ← op.usesKlen_iff]
    exact ⟨hr, op.toNat_le, by simpa [or_iff_not_imp_left] using hw,
      by simpa [or_iff_not_imp_left] using hk⟩

/-- The decoder accepts exactly the legal values (30_encoding.md R78). -/
theorem decodes_iff_legal (c : Word) : (∃ i, decode c = .ok i) ↔ legal c = true := by
  simp only [decode_eq_ok_iff_matches, legal_iff_matches]
  exact ⟨fun ⟨_, op, hm, _⟩ => ⟨op, hm⟩, fun ⟨op, hm⟩ => ⟨_, op, hm, rfl⟩⟩

/-! ### The opcode table -/

/-- The first bit above the fields an opcode uses (30_encoding.md R70). -/
def Opcode.fieldsEnd (op : Opcode) : Nat :=
  if op.usesKlen then 18 else if op.usesWidth then 12 else 4

/-- The row of spec/opcode_table.json for an opcode: every bit counts but those of the fields it
uses. -/
def Opcode.row (op : Opcode) : TableRow where
  mask := BitVec.ofNat 32 (2 ^ 32 - 2 ^ op.fieldsEnd + 15)
  pattern := BitVec.ofNat 32 op.toNat

theorem opcodeTable_eq_rows :
    opcodeTable = ((List.range 12).filterMap Opcode.ofNat?).map Opcode.row := by
  decide

theorem mem_opcodeTable (r : TableRow) : r ∈ opcodeTable ↔ ∃ op : Opcode, op.row = r := by
  rw [opcodeTable_eq_rows, List.mem_map]
  constructor
  · exact fun ⟨op, _, h⟩ => ⟨op, h⟩
  · rintro ⟨op, h⟩
    have hrange : op.toNat ∈ List.range 12 := List.mem_range.2 (Nat.lt_succ_of_le op.toNat_le)
    exact ⟨op, List.mem_filterMap.2 ⟨_, hrange, op.ofNat?_toNat⟩, h⟩

theorem Opcode.row_mask_getLsbD (op : Opcode) :
    ∀ i < 32, op.row.mask.getLsbD i = decide (i < 4 ∨ op.fieldsEnd ≤ i) := by
  cases op <;> decide

theorem Opcode.le_fieldsEnd (op : Opcode) : 4 ≤ op.fieldsEnd := by
  cases op <;> decide

/-- No bit above the fields an opcode uses is set exactly when the reserved bits and the fields it
does not use are 0. -/
theorem Opcode.div_fieldsEnd_eq_zero_iff (op : Opcode) (c : Word) :
    c.toNat / 2 ^ op.fieldsEnd = 0 ↔ bits c 63 18 = 0 ∧
      (op.usesWidth = false → bits c 11 4 = 0) ∧ (op.usesKlen = false → bits c 17 12 = 0) := by
  have hc := c.isLt
  unfold Opcode.fieldsEnd bits
  cases hk : op.usesKlen with
  | true =>
    simp only [Opcode.usesWidth_of_usesKlen hk, reduceCtorEq, if_true, false_imp_iff, and_true]
    omega
  | false =>
    cases op.usesWidth with
    | true =>
      simp only [reduceCtorEq, if_true, if_false, false_imp_iff, true_imp_iff, true_and]
      omega
    | false =>
      simp only [reduceCtorEq, if_false, true_imp_iff]
      omega

/-- A row covers a value below `2^32` exactly when that is a word of the row's opcode. -/
theorem Opcode.row_covers_iff (op : Opcode) {c : Word} (hc : c.toNat < 2 ^ 32) :
    op.row.covers (c.setWidth 32) = true ↔ op.Matches c := by
  have hop := op.toNat_le
  have hpat : op.row.pattern.toNat = op.toNat := Nat.mod_eq_of_lt (by omega)
  have hcover : op.row.covers (c.setWidth 32) = true ↔
      bits c 3 0 = op.toNat ∧ c.toNat / 2 ^ op.fieldsEnd = 0 := by
    rw [TableRow.covers, beq_iff_eq, ← BitVec.toNat_inj,
      toNat_and_mask _ _ op.le_fieldsEnd op.row_mask_getLsbD, hpat, BitVec.toNat_setWidth,
      Nat.mod_eq_of_lt hc]
    have hdvd : 16 ∣ c.toNat / 2 ^ op.fieldsEnd * 2 ^ op.fieldsEnd :=
      (pow_dvd_pow 2 op.le_fieldsEnd).mul_left _
    have hzero : c.toNat / 2 ^ op.fieldsEnd = 0 ↔
        c.toNat / 2 ^ op.fieldsEnd * 2 ^ op.fieldsEnd = 0 := by simp
    rw [hzero]
    generalize c.toNat / 2 ^ op.fieldsEnd * 2 ^ op.fieldsEnd = high at hdvd ⊢
    unfold bits
    omega
  rw [hcover, op.div_fieldsEnd_eq_zero_iff]
  exact ⟨fun ⟨ho, hr, hw, hk⟩ => ⟨ho, hr, hw, hk⟩, fun ⟨ho, hr, hw, hk⟩ => ⟨ho, hr, hw, hk⟩⟩

/-- The table's legality: the value is a word of some opcode (30_encoding.md R78). -/
theorem tableLegal_iff_matches (c : Word) : tableLegal c = true ↔ ∃ op : Opcode, op.Matches c := by
  have hhigh : bits c 63 32 = 0 ↔ c.toNat < 2 ^ 32 := by
    have := c.isLt
    unfold bits
    omega
  simp only [tableLegal, Bool.and_eq_true, decide_eq_true_eq, List.any_eq_true, mem_opcodeTable,
    hhigh]
  constructor
  · rintro ⟨⟨_, ⟨op, rfl⟩, hcov⟩, hc⟩
    exact ⟨op, (op.row_covers_iff hc).1 hcov⟩
  · rintro ⟨op, hm⟩
    have hc : c.toNat < 2 ^ 32 := by
      have := hm.reserved
      have := c.isLt
      unfold bits at *
      omega
    exact ⟨⟨op.row, ⟨op, rfl⟩, (op.row_covers_iff hc).2 hm⟩, hc⟩

/-- Settles O3: the decoder, the predicate and the table each accept the words of the opcodes. -/
theorem decodedExactlyWhenLegal : Obligations.DecodedExactlyWhenLegal := fun c =>
  ⟨decodes_iff_legal c,
    Bool.eq_iff_iff.2 ((legal_iff_matches c).trans (tableLegal_iff_matches c).symm)⟩

/-- Settles O4: the ten words decode by evaluation. -/
theorem tableWordsDecode : Obligations.TableWordsDecode := by
  unfold Obligations.TableWordsDecode
  decide

end Sys2Proof

namespace Sys2Proof.Machine

/-! ### The host assembly's command word -/

/-- Fields that fit their places do not overlap, so that `|` adds them (30_encoding.md R85). -/
theorem sourceWord_toNat (op : Opcode) {w k : Nat} (hw : w < 256) (hk : k < 64) :
    (sourceWord op w k).toNat = k * 4096 + (w * 16 + op.toNat) := by
  have hop := op.toNat_le
  have hlow : op.toNat ||| w <<< 4 = w * 16 + op.toNat := by
    rw [Nat.or_comm, ← Nat.shiftLeft_add_eq_or_of_lt (by omega), Nat.shiftLeft_eq]
  have hall : (w * 16 + op.toNat) ||| k <<< 12 = k * 4096 + (w * 16 + op.toNat) := by
    rw [Nat.or_comm, ← Nat.shiftLeft_add_eq_or_of_lt (by omega), Nat.shiftLeft_eq]
  have hwidth : (BitVec.ofNat 64 w <<< 4).toNat = w <<< 4 := by
    simp only [BitVec.toNat_shiftLeft, BitVec.toNat_ofNat, Nat.shiftLeft_eq]
    omega
  have hklen : (BitVec.ofNat 64 k <<< 12).toNat = k <<< 12 := by
    simp only [BitVec.toNat_shiftLeft, BitVec.toNat_ofNat, Nat.shiftLeft_eq]
    omega
  rw [sourceWord, BitVec.toNat_or, BitVec.toNat_or, hwidth, hklen, BitVec.toNat_ofNat,
    Nat.mod_eq_of_lt (by omega), hlow, hall]

/-- Settles O5: both words are the same sum of the fields. -/
theorem assemblyWordIsEncoding : Obligations.AssemblyWordIsEncoding := by
  intro i h
  obtain ⟨hw, hk⟩ := i.wellFormed_iff.1 h
  have hop := i.opcode.toNat_le
  apply BitVec.eq_of_toNat_eq
  rw [sourceWord_toNat _ hw hk, encode, commandWord_toNat, Nat.mod_eq_of_lt hw, Nat.mod_eq_of_lt hk,
    Nat.mod_eq_of_lt (by omega)]

/-! ### Illegal commands -/

/-- The unit's move on an illegal command is its completion with the error (60_exceptions.md R206). -/
theorem unitStep_of_illegal {s : State} (hp : s.phase = .exec) (hl : legal s.latch.cmd = false) :
    unitStep s = raise .illegalCommand s := by
  unfold unitStep
  cases hd : decode s.latch.cmd with
  | ok i => simp [(decodes_iff_legal _).1 ⟨i, hd⟩] at hl
  | error e => simp [hp]

/-- The causes of `ILLEGAL_COMMAND` (60_exceptions.md R206) are the failures of the clauses of
`legal`. -/
theorem legal_eq_false_iff (c : Word) : legal c = false ↔
    (bits c 63 18 ≠ 0 ∨ 0xC ≤ bits c 3 0
      ∨ (bits c 3 0 ∉ [0x1, 0x2, 0x6, 0x7, 0x8] ∧ bits c 11 4 ≠ 0)
      ∨ (bits c 3 0 ≠ 0x8 ∧ bits c 17 12 ≠ 0)) := by
  simp only [legal, decide_eq_false_iff_not, not_and_or, not_or, Nat.not_le]
  rfl

/-- Settles O9: the unit's move raises `ILLEGAL_COMMAND`, and a completion's frame is empty. -/
theorem illegalCommandHasNoOtherEffect : Obligations.IllegalCommandHasNoOtherEffect :=
  ⟨legal_eq_false_iff, fun s hp hl => ⟨complete .illegalCommand s, unitStep_of_illegal hp hl,
    completed_complete _ s, frame_complete_self _ s⟩⟩

end Sys2Proof.Machine
end

section
/-! SUPPORT. The host assembly's jump and its variables (30_encoding.md R84). -/

namespace Sys2Proof.Machine

/-! ### The target of a jump -/

theorem labelPos_cons_self (l p : Nat) (rest : List HostStmt) :
    labelPos l p (.label l :: rest) = some p := by
  simp [labelPos]

theorem labelPos_cons_of_ne {l : Nat} {st : HostStmt} (h : st ≠ .label l) (p : Nat)
    (rest : List HostStmt) : labelPos l p (st :: rest) = labelPos l (p + 1) rest := by
  cases st with
  | label k => exact if_neg fun hk : k = l => h (hk ▸ rfl)
  | wr _ _ | rd _ _ | bnz _ _ _ => rfl

/-- `labelPos` finds the first statement with the label (assumption 9). -/
theorem labelPos_eq_first {l : Nat} {prog : List HostStmt} {pre : Nat}
    (hat : prog[pre]? = some (.label l)) (hfirst : ∀ j < pre, prog[j]? ≠ some (.label l)) (p : Nat) :
    labelPos l p prog = some (p + pre) := by
  induction prog generalizing pre p with
  | nil => simp at hat
  | cons st rest ih =>
    cases pre with
    | zero =>
      obtain rfl : st = .label l := by simpa using hat
      exact labelPos_cons_self l p rest
    | succ pre =>
      have hne : st ≠ .label l := fun h => hfirst 0 (Nat.succ_pos _) (congrArg some h)
      have hrest := ih (pre := pre) hat (fun j hj => hfirst (j + 1) (Nat.succ_lt_succ hj)) (p + 1)
      rw [labelPos_cons_of_ne hne, hrest]
      congr 1
      omega

/-- Settles O25: without a common bit `bnz` goes on, and else it jumps to where `labelPos` finds the
label. -/
theorem branchOnMaskedBits : Obligations.BranchOnMaskedBits := by
  intro s x l pre mask
  refine ⟨fun hb => if_pos hb, fun hb hat hfirst => ?_⟩
  calc hostStmt (.bnz x mask l) s = jump l s := if_neg hb
    _ = .next { s with host := { s.host with pos := pre } } := by
      simp [jump, labelPos_eq_first hat hfirst]

/-! ### Who writes the host's variables -/

theorem unitStep_host {s t : State} (h : unitStep s = .next t) : t.host = s.host := by
  rcases unitStep_ends_or_calls h with ⟨-, rfl⟩ | ⟨-, h⟩ | ⟨-, dir, -, -, -, -, rfl⟩
  · rfl
  · exact h.frame.host
  · rfl

theorem primStep_host {p : FpePrim} {s t : State} (h : primStep p s = .next t) :
    t.host = s.host := by
  rcases primStep_ends h with rfl | ⟨r, -, -, h⟩
  · rfl
  · exact h.frame.host

/-- The host's move changes its variables only by a read into one. -/
theorem hostStep_vars {s t : State} (h : hostStep s = .next t) :
    t.host.vars = s.host.vars ∨ ∃ x v, t.host.vars = varSet x v s.host.vars := by
  rcases hostStep_cases h with rfl | ⟨pos, rfl⟩ | ⟨x, v, rfl⟩ | ⟨off, v, rfl⟩
  · exact .inl rfl
  · exact .inl rfl
  · exact .inr ⟨x, v, rfl⟩
  · exact .inl rfl

/-- Settles O60: only the host's move changes its variables, and `varSet` keeps their form. -/
theorem stepKeepsHostVariables : Obligations.StepKeepsHostVariables := by
  intro s t hwf h
  rcases stepWith_cases h with ⟨-, h⟩ | ⟨-, h⟩ | ⟨-, h⟩ | ⟨-, rfl⟩ | ⟨-, rfl⟩
  · rw [unitStep_host h]
    exact hwf
  · rw [primStep_host h]
    exact hwf
  · rcases hostStep_vars h with hv | ⟨x, v, hv⟩ <;> rw [hv]
    · exact hwf
    · exact varSet_wf x v hwf
  · exact hwf
  · exact hwf

end Sys2Proof.Machine
end

section
/-! SUPPORT. The Newton–Hensel iteration computes the inverse modulo `2^n`
(40_modular_inverse.md R100 to R102), and `INV` delivers it (R103). -/

namespace Sys2Proof.Machine

/-! ### The iteration -/

/-- One round leaves the square of the error `1 - s * x` (40_modular_inverse.md R102). -/
theorem newtonStep_error (n s x : Nat) :
    1 - (s : Int) * newtonStep n s x ≡ (1 - s * x) ^ 2 [ZMOD 2 ^ n] := by
  have hstep : (newtonStep n s x : Int) ≡ x * (2 - s * x) [ZMOD 2 ^ n] := by
    rw [newtonStep, mulMod, modN_cast, modN_cast]
    push_cast
    exact (Int.mod_modEq _ _).trans ((Int.mod_modEq _ _).mul_left _)
  calc 1 - (s : Int) * newtonStep n s x
      ≡ 1 - s * (x * (2 - s * x)) [ZMOD 2 ^ n] := (hstep.mul_left _).sub_left _
    _ = (1 - s * x) ^ 2 := by ring

/-- One round doubles the number of correct low bits, up to the width. -/
theorem newtonStep_correct {n s x k : Nat} (h : (2 : Int) ^ min n k ∣ 1 - s * x) :
    (2 : Int) ^ min n (2 * k) ∣ 1 - s * newtonStep n s x := by
  have hsquare : (2 : Int) ^ min n (2 * k) ∣ (1 - s * x) ^ 2 :=
    calc (2 : Int) ^ min n (2 * k) ∣ 2 ^ (min n k * 2) := pow_dvd_pow 2 (by omega)
      _ = (2 ^ min n k) ^ 2 := pow_mul _ _ _
      _ ∣ (1 - s * x) ^ 2 := pow_dvd_pow_of_dvd h 2
  have herror := (newtonStep_error n s x).of_dvd (pow_dvd_pow 2 (min_le_left n (2 * k)))
  exact herror.dvd_iff.2 hsquare

/-- Each of `r` rounds doubles the number of correct low bits. -/
theorem newtonIter_correct {n s : Nat} (r : Nat) {x k : Nat}
    (h : (2 : Int) ^ min n k ∣ 1 - s * x) :
    (2 : Int) ^ min n (2 ^ r * k) ∣ 1 - s * newtonIter n s r x := by
  induction r generalizing x k with
  | zero => simpa [newtonIter] using h
  | succ r ih =>
    rw [newtonIter, pow_succ, mul_assoc]
    exact ih (newtonStep_correct h)

theorem newtonIter_lt {n s : Nat} (r : Nat) {x : Nat} (h : x < 2 ^ n) :
    newtonIter n s r x < 2 ^ n := by
  induction r generalizing x with
  | zero => exact h
  | succ r ih => exact ih (mulMod_lt _ _ _)

/-! ### The inverse -/

theorem invN_lt {n s : Nat} (h : s < 2 ^ n) : invN n s < 2 ^ n := newtonIter_lt _ h

theorem affWidth_bounds {n : Nat} (hn : n ∈ [8, 16, 32, 64]) : 0 < n ∧ n ≤ 64 := by
  revert n
  decide

/-- The rounds reach the whole width from the three bits in which an odd number is its own inverse
(40_modular_inverse.md R102). -/
theorem le_newtonRounds {n : Nat} (hn : n ∈ [8, 16, 32, 64]) : n ≤ 2 ^ newtonRounds n * 3 := by
  revert n
  decide

theorem mul_mod_two_pow_eq_one_iff {n : Nat} (hn : 0 < n) (a b : Nat) :
    a * b % 2 ^ n = 1 ↔ (2 : Int) ^ n ∣ 1 - a * b := by
  have hone : 1 % 2 ^ n = 1 := Nat.mod_eq_of_lt (Nat.one_lt_two_pow hn.ne')
  calc a * b % 2 ^ n = 1 ↔ a * b ≡ 1 [MOD 2 ^ n] := by rw [Nat.ModEq, hone]
    _ ↔ (2 : Int) ^ n ∣ 1 - a * b := by simp [← Int.natCast_modEq_iff, Int.modEq_iff_dvd]

theorem mul_invN {n s : Nat} (hn : n ∈ [8, 16, 32, 64]) (hs : s % 2 = 1) :
    s * invN n s % 2 ^ n = 1 := by
  have hpos := (affWidth_bounds hn).1
  have hodd : Odd (s : Int) := Int.odd_iff.2 (by omega)
  have hstart : (2 : Int) ^ min n 3 ∣ 1 - s * s :=
    calc (2 : Int) ^ min n 3 ∣ 2 ^ 3 := pow_dvd_pow 2 (min_le_right n 3)
      _ ∣ s ^ 2 - 1 := Int.eight_dvd_sq_sub_one_of_odd hodd
      _ ∣ 1 - s * s := ⟨-1, by ring⟩
  have hend := newtonIter_correct (newtonRounds n) hstart
  rw [min_eq_left (le_newtonRounds hn)] at hend
  exact (mul_mod_two_pow_eq_one_iff hpos _ _).2 hend

/-- An odd number has at most one inverse below `2^n` (40_modular_inverse.md R101). -/
theorem inverse_unique {n s r r' : Nat} (hs : s % 2 = 1) (hr : r < 2 ^ n) (hr' : r' < 2 ^ n)
    (h : s * r % 2 ^ n = 1) (h' : s * r' % 2 ^ n = 1) : r = r' := by
  have hcoprime : Nat.Coprime (2 ^ n) s :=
    Nat.Coprime.pow_left n (Nat.coprime_two_left.2 (Nat.odd_iff.2 hs))
  have heq : s * r ≡ s * r' [MOD 2 ^ n] := h.trans h'.symm
  exact (Nat.ModEq.cancel_left_of_coprime hcoprime heq).eq_of_lt_of_lt hr hr'

/-- Settles O29: the iteration ends in an inverse, and two inverses of an odd number are equal. -/
theorem inverseExistsAndIsUnique : Obligations.InverseExistsAndIsUnique :=
  fun _ hn _ hlt hs => ⟨invN_lt hlt, mul_invN hn hs,
    fun _ hr h => inverse_unique hs hr (invN_lt hlt) h (mul_invN hn hs)⟩

/-- A factor of a number that is 1 modulo a power of two is odd. -/
theorem odd_of_mul_mod_two_pow {n a b : Nat} (hn : 0 < n) (h : a * b % 2 ^ n = 1) : b % 2 = 1 := by
  have hmod : a * b % 2 = 1 := by
    rw [← Nat.mod_mod_of_dvd _ (dvd_pow_self 2 hn.ne'), h]
  exact Nat.odd_iff.1 (Nat.odd_mul.1 (Nat.odd_iff.2 hmod)).2

/-- Settles O31: the salt and its inverse are inverses of each other, and an odd number has at most
one. -/
theorem inverseIsAnInvolution : Obligations.InverseIsAnInvolution := by
  intro n hn s hlt hs
  have hpos := (affWidth_bounds hn).1
  have hinv := mul_invN hn hs
  have hodd : invN n s % 2 = 1 := odd_of_mul_mod_two_pow hpos hinv
  rw [mul_comm] at hinv
  exact ⟨inverse_unique hodd (invN_lt (invN_lt hlt)) hlt (mul_invN hn hodd) hinv, hodd⟩

/-! ### `INV` -/

/-- `INV` with its checks passed (40_modular_inverse.md R103). -/
theorem exec_inv {n : Nat} {s : State} (hn : n ∈ [8, 16, 32, 64]) (hw : s.latch.opaWr = true)
    (hlt : s.latch.opa.toNat < 2 ^ n) (hodd : s.latch.opa.toNat % 2 = 1) :
    exec (.inv n) s =
      .next (complete .none { s with res := zext64 (invN n s.latch.opa.toNat) }) := by
  rw [← validAffWidth_iff] at hn
  rw [← inRange_iff] at hlt
  rw [← odd_iff] at hodd
  simp only [exec, execInv, hn, hw, hlt, hodd, succeed, Bool.true_eq_false, if_false]

/-- Settles O30: with its checks passed `INV` completes with the inverse in `RES`, and a completion
with a result writes `RES` alone. -/
theorem invDeliversTheInverse : Obligations.InvDeliversTheInverse := by
  intro n s hn hw hlt hodd
  have hle := (affWidth_bounds hn).2
  have hinv := invN_lt hlt
  refine ⟨_, exec_inv hn hw hlt hodd, completed_complete _ _, frame_complete_res _ _ _, ?_⟩
  rw [complete_res, zext64_toNat_of_width hle hinv]
  exact ⟨hinv, mul_invN hn hodd⟩

end Sys2Proof.Machine
end

section
/-! SUPPORT. Bit reversal and the affine map (41_affine_scrambler.md R120 to R124). -/

namespace Sys2Proof.Machine

/-! ### Bit reversal -/

/-- Every bit of a reversal: bit `j` is bit `n-1-j` of the value, and there are `n` of them. -/
theorem brev_testBit (n x j : Nat) :
    (brev n x).testBit j = (decide (j < n) && x.testBit (n - 1 - j)) := by
  induction n generalizing x j with
  | zero => simp [brev]
  | succ n ih =>
    rw [brev, mul_comm, Nat.testBit_two_pow_mul_add _ (brev_lt n _)]
    split
    · next hj =>
      have hlt : j < n + 1 := by omega
      have hbit : n + 1 - 1 - j = n - 1 - j + 1 := by omega
      rw [ih, hbit, Nat.testBit_div_two]
      simp [hj, hlt]
    · next hj =>
      rcases Nat.lt_or_eq_of_le (Nat.le_of_not_lt hj) with hgt | rfl
      · have htop : x % 2 < 2 ^ (j - n) :=
          lt_of_lt_of_le (Nat.mod_lt x (by decide)) (Nat.le_self_pow (by omega) 2)
        simp [Nat.testBit_lt_two_pow htop, show ¬ j < n + 1 by omega]
      · simp

theorem brev_testBit_mirror {n i : Nat} (hi : i < n) (x : Nat) :
    (brev n x).testBit (n - 1 - i) = x.testBit i := by
  have hlt : n - 1 - i < n := by omega
  have hback : n - 1 - (n - 1 - i) = i := by omega
  simp [brev_testBit, hlt, hback]

theorem brev_brev {n x : Nat} (hx : x < 2 ^ n) : brev n (brev n x) = x := by
  apply Nat.eq_of_testBit_eq
  intro j
  rw [brev_testBit]
  by_cases hj : j < n
  · simp [hj, brev_testBit_mirror hj]
  · have hle : 2 ^ n ≤ 2 ^ j := Nat.pow_le_pow_right (by decide) (by omega)
    simp [hj, Nat.testBit_lt_two_pow (lt_of_lt_of_le hx hle)]

/-- Bits at or above `n` take no part in a reversal. -/
theorem brev_add_high (n x high : Nat) : brev n (x + 2 ^ n * high) = brev n x := by
  induction n generalizing x with
  | zero => rfl
  | succ n ih =>
    have hlow : (x + 2 ^ (n + 1) * high) % 2 = x % 2 := by
      rw [pow_succ', mul_assoc]
      omega
    have hrest : (x + 2 ^ (n + 1) * high) / 2 = x / 2 + 2 ^ n * high := by
      rw [pow_succ', mul_assoc]
      omega
    rw [brev, brev, hlow, hrest, ih]

@[simp] theorem brev_zero (n : Nat) : brev n 0 = 0 := by
  apply Nat.eq_of_testBit_eq
  simp [brev_testBit]

/-- Settles O32, bit by bit. -/
theorem bitReversalMovesEveryBit : Obligations.BitReversalMovesEveryBit :=
  fun n _ x hx => ⟨brev_lt n x, fun _ hi => brev_testBit_mirror hi x, brev_brev hx,
    brev_add_high n x⟩

/-! ### The affine map -/

/-- Multiplying by one of two inverse factors and then by the other gives the value back. -/
theorem mul_mod_mul_mod_cancel {n a b x : Nat} (h : a * b % 2 ^ n = 1) (hx : x < 2 ^ n) :
    x * a % 2 ^ n * b % 2 ^ n = x :=
  calc x * a % 2 ^ n * b % 2 ^ n = x * (a * b % 2 ^ n) % 2 ^ n := by
        rw [Nat.mod_mul_mod, Nat.mul_mod_mod, mul_assoc]
    _ = x := by rw [h, mul_one, Nat.mod_eq_of_lt hx]

theorem aff_lt (n s i v : Nat) : aff n s i v < 2 ^ n := mulMod_lt _ _ _

@[simp] theorem aff_zero (n s i : Nat) : aff n s i 0 = 0 := by
  simp [aff_eq]

/-- The proof of R123: the inner inverse cancels against the salt, then the two reversals against each
other, then the salt against the outer inverse. -/
theorem aff_aff {n s i v : Nat} (h : s * i % 2 ^ n = 1) (hv : v < 2 ^ n) :
    aff n s i (aff n s i v) = v := by
  have h' : i * s % 2 ^ n = 1 := by rwa [mul_comm]
  rw [aff_eq, aff_eq, mul_mod_mul_mod_cancel h' (brev_lt _ _),
    brev_brev (Nat.mod_lt _ (by positivity)), mul_mod_mul_mod_cancel h hv]

/-- Settles O33: the proof of R123, which holds at every width. -/
theorem affineMapIsAnInvolution : Obligations.AffineMapIsAnInvolution :=
  fun _ _ _ _ _ h hv => aff_aff h hv

/-- Settles O34: a map that is its own inverse is a permutation. -/
theorem affineMapIsAPermutation : Obligations.AffineMapIsAPermutation := by
  intro n _ s i h
  refine ⟨aff_zero n s i, fun v _ => aff_lt n s i v, fun v hv w hw hvw => ?_, fun y hy => ?_⟩
  · calc v = aff n s i (aff n s i v) := (aff_aff h hv).symm
      _ = aff n s i (aff n s i w) := by rw [hvw]
      _ = w := aff_aff h hw
  · exact ⟨aff n s i y, aff_lt n s i y, aff_aff h hy⟩

end Sys2Proof.Machine
end

section
/-! SUPPORT. The affine context (10_state.md R38, R40): every step keeps its invariant, and
`AFF_LOAD` constructs it (41_affine_scrambler.md R125, R126). -/

namespace Sys2Proof.Machine

/-! ### The context of a salt -/

theorem AffCtx.ofSalt_width_toNat {n : Nat} (hn : n ∈ [8, 16, 32, 64]) (salt : Word) :
    (AffCtx.ofSalt n salt).width.toNat = n := by
  have hle := (affWidth_bounds hn).2
  exact Nat.mod_eq_of_lt (by omega)

/-- A salt that passes the checks of `AFF_LOAD` makes a context that meets its invariant. -/
theorem affCtxInv_ofSalt {n : Nat} {salt : Word} (hn : n ∈ [8, 16, 32, 64])
    (hlt : salt.toNat < 2 ^ n) (hodd : salt.toNat % 2 = 1) (hone : 1 < salt.toNat) :
    AffCtxInv (AffCtx.ofSalt n salt) := by
  have hle := (affWidth_bounds hn).2
  have hw := AffCtx.ofSalt_width_toNat hn salt
  have hinv : (AffCtx.ofSalt n salt).inv.toNat = invN n salt.toNat :=
    zext64_toNat_of_width hle (invN_lt hlt)
  refine ⟨fun _ => ?_, fun _ => ?_, fun _ => ?_, fun hv => Bool.noConfusion hv⟩ <;> rw [hw]
  · exact hn
  · exact ⟨hlt, hone, hodd⟩
  · rw [hinv]
    exact ⟨invN_lt hlt, mul_invN hn hodd⟩

/-! ### The invariant -/

/-- A command leaves the affine context, clears it (`AFF_CLEAR`), or constructs it from the latched
operand, its checks passed (`AFF_LOAD`). -/
theorem exec_affCtx_cases {i : Instr} {s t : State} (h : exec i s = .next t) :
    t.affCtx = s.affCtx ∨ t.affCtx = AffCtx.cleared ∨
    ∃ n ∈ [8, 16, 32, 64], s.latch.opa.toNat < 2 ^ n ∧ s.latch.opa.toNat % 2 = 1 ∧
      s.latch.opa ≠ 1 ∧ t.affCtx = AffCtx.ofSalt n s.latch.opa := by
  rcases exec_cases h with ⟨code, -, rfl⟩ | ⟨-, rfl⟩ | ⟨n, -, -, -, -, -, rfl⟩ |
    ⟨n, -, hn, -, hr, ho, hone, rfl⟩ | ⟨-, -, -, -, rfl⟩ | ⟨-, rfl⟩ | ⟨n, -, -, -, -, rfl⟩ |
    ⟨n, ds, -, -, -, -, -, rfl⟩ | ⟨n, k, -, -, -, -, rfl⟩ | ⟨dir, -, -, -, -, rfl⟩ | ⟨-, rfl⟩
  · exact .inl rfl
  · exact .inl rfl
  · exact .inl rfl
  · exact .inr (.inr ⟨n, (validAffWidth_iff n).1 hn, (inRange_iff _ n).1 hr, (odd_iff _).1 ho, hone,
      rfl⟩)
  · exact .inl rfl
  · exact .inr (.inl rfl)
  all_goals exact .inl rfl

theorem affCtxInv_exec {i : Instr} {s t : State} (hi : AffCtxInv s.affCtx)
    (h : exec i s = .next t) : AffCtxInv t.affCtx := by
  rcases exec_affCtx_cases h with hc | hc | ⟨n, hn, hlt, hodd, hone, hc⟩ <;> rw [hc]
  · exact hi
  · exact affCtxInv_cleared
  · have hne : s.latch.opa.toNat ≠ 1 := fun h => hone (BitVec.eq_of_toNat_eq h)
    exact affCtxInv_ofSalt hn hlt hodd (by omega)

theorem affCtxInv_unitStep {s t : State} (hi : AffCtxInv s.affCtx) (h : unitStep s = .next t) :
    AffCtxInv t.affCtx := by
  rcases unitStep_cases h with ⟨-, rfl⟩ | ⟨-, i, -, h⟩ | ⟨-, -, rfl⟩
  · exact hi
  · exact affCtxInv_exec hi h
  · exact hi

theorem primStep_affCtx {p : FpePrim} {s t : State} (h : primStep p s = .next t) :
    t.affCtx = s.affCtx := by
  rcases primStep_ends h with rfl | ⟨r, -, -, h⟩
  · rfl
  · exact h.frame.aff rfl

/-- Settles O55, move by move: `AFF_LOAD` stores a salt that passed its checks with its inverse,
`AFF_CLEAR` and a reset clear the context, and nothing else writes it. -/
theorem stepKeepsTheAffineContext : Obligations.StepKeepsTheAffineContext := by
  refine stepWith_keeps (I := fun s => AffCtxInv s.affCtx) ?_ ?_ ?_ ?_ ?_
  · exact fun _ _ _ hi => hi
  · exact fun s t => affCtxInv_unitStep
  · exact fun s t hi h => (primStep_affCtx h).symm ▸ hi
  · intro s off v hi
    obtain ⟨haff, -⟩ := busWrite_contexts off v s
    rwa [haff]
  · exact fun _ => affCtxInv_cleared

/-! ### `AFF_LOAD` -/

/-- `AFF_LOAD` with its checks passed (41_affine_scrambler.md R125). -/
theorem exec_affLoad {n : Nat} {s : State} (hn : n ∈ [8, 16, 32, 64]) (hw : s.latch.opaWr = true)
    (hlt : s.latch.opa.toNat < 2 ^ n) (hodd : s.latch.opa.toNat % 2 = 1)
    (hone : 1 < s.latch.opa.toNat) :
    exec (.affLoad n) s =
      .next (complete .none { s with affCtx := AffCtx.ofSalt n s.latch.opa }) := by
  have hne : s.latch.opa ≠ 1 := fun h => by simp [h] at hone
  rw [← validAffWidth_iff] at hn
  rw [← inRange_iff] at hlt
  rw [← odd_iff] at hodd
  simp only [exec, execAffLoad, hn, hw, hlt, hodd, hne, succeed, Bool.true_eq_false, or_self,
    if_false]

/-- `STATUS` with `NONE` and no FPE context (41_affine_scrambler.md R126). -/
theorem statusWord_of_completed {n : Nat} {t : State} (h : Completed .none t)
    (haff : t.affCtx.valid = true) (hw : t.affCtx.width.toNat = n) (hfpe : t.fpeCtx.valid = false)
    (hovr : t.status.ovr = false) : (statusWord t).toNat = n * 2 ^ 16 + 0x12 := by
  have herr : t.status.err = false := by simpa using h.err
  simp [statusWord_toNat, AffCtx.shownWidth, FpeCtx.shownWidth, FpeCtx.shownKeylen, haff, hw, hfpe,
    hovr, herr, h.errCode, h.busy, h.done, ErrCode.number]

/-- Settles O35: with its checks passed `AFF_LOAD` completes with the context of the salt, whose
invariant says that its `inv` is the inverse. -/
theorem affLoadConstructsTheContext : Obligations.AffLoadConstructsTheContext := by
  intro n s hn hw hlt hodd hone
  have hwidth := AffCtx.ofSalt_width_toNat hn s.latch.opa
  obtain ⟨hinv, hmul⟩ := (affCtxInv_ofSalt hn hlt hodd hone).inv rfl
  rw [hwidth] at hinv hmul
  refine ⟨_, exec_affLoad hn hw hlt hodd hone, completed_complete _ _, frame_complete_aff _ _ _, rfl,
    hwidth, rfl, hinv, hmul, fun hfpe hovr => ?_⟩
  exact statusWord_of_completed (completed_complete _ _) rfl hwidth hfpe hovr

end Sys2Proof.Machine
end

section
/-! SUPPORT. `AFF_SCR` and `AFF_UNSCR` (41_affine_scrambler.md R127, R128): with a context, after
`AFF_CLEAR` (R129), and one after the other (R131). -/

namespace Sys2Proof.Machine

/-! ### The map of a context -/

theorem AffCtxInv.map_toNat {c : AffCtx} (h : AffCtxInv c) (hc : c.valid = true) (v : Word) :
    (c.map v).toNat = aff c.width.toNat c.salt.toNat c.inv.toNat v.toNat :=
  zext64_toNat_of_width (affWidth_bounds (h.width hc)).2 (aff_lt _ _ _ _)

theorem AffCtxInv.map_lt {c : AffCtx} (h : AffCtxInv c) (hc : c.valid = true) (v : Word) :
    (c.map v).toNat < 2 ^ c.width.toNat := by
  rw [h.map_toNat hc]
  exact aff_lt _ _ _ _

theorem AffCtxInv.map_map {c : AffCtx} (h : AffCtxInv c) (hc : c.valid = true) {v : Word}
    (hv : v.toNat < 2 ^ c.width.toNat) : c.map (c.map v) = v := by
  obtain ⟨-, hinv⟩ := h.inv hc
  apply BitVec.eq_of_toNat_eq
  rw [h.map_toNat hc, h.map_toNat hc, aff_aff hinv hv]

/-! ### The commands -/

theorem exec_eq_affScramble {i : Instr} (hi : i ∈ [Instr.affScr, Instr.affUnscr]) (s : State) :
    exec i s = affScramble s := by
  simp only [List.mem_cons, List.not_mem_nil, or_false] at hi
  rcases hi with rfl | rfl <;> rfl

/-- A scramble with its checks passed (41_affine_scrambler.md R127, R128). -/
theorem exec_scramble {i : Instr} {s : State} (hi : i ∈ [Instr.affScr, Instr.affUnscr])
    (hc : s.affCtx.valid = true) (hw : s.latch.opaWr = true)
    (hlt : s.latch.opa.toNat < 2 ^ s.affCtx.width.toNat) :
    exec i s = .next (complete .none { s with res := s.affCtx.map s.latch.opa }) := by
  rw [← inRange_iff] at hlt
  rw [exec_eq_affScramble hi]
  simp only [affScramble, hc, hw, hlt, succeed, Bool.true_eq_false, if_false]

theorem exec_scramble_noContext {i : Instr} {s : State} (hi : i ∈ [Instr.affScr, Instr.affUnscr])
    (hc : s.affCtx.valid = false) : exec i s = raise .noContext s := by
  rw [exec_eq_affScramble hi, affScramble, if_pos hc]

/-- Settles O36: both commands are one computation, whose result is the affine map over plain products
and remainders. -/
theorem affineScrambleResult : Obligations.AffineScrambleResult := by
  refine ⟨fun _ => rfl, fun i hi s hinv hc hw hlt => ?_⟩
  refine ⟨_, exec_scramble hi hc hw hlt, completed_complete _ _, frame_complete_res _ _ _, ?_⟩
  rw [complete_res, hinv.map_toNat hc, aff_eq]

/-- Settles O38: `AFF_CLEAR` has no checks, the mirrors of the cleared context show 0, and a scramble
checks first that there is a context. -/
theorem affClearDestroysTheContext : Obligations.AffClearDestroysTheContext := by
  intro s
  obtain ⟨-, -, -, -, hvalid, -, -, -, -, hwidth, -⟩ :=
    statusWord_fields (complete .none { s with affCtx := AffCtx.cleared })
  exact ⟨_, rfl, completed_complete _ _, frame_complete_aff _ _ _, rfl, hvalid, hwidth, fun _ hi =>
    ⟨_, exec_scramble_noContext hi rfl, completed_complete _ _⟩⟩

/-! ### Two commands -/

/-- The unit's move on a legal command is its execution (60_exceptions.md R201). -/
theorem unitStep_of_decodes {i : Instr} {s : State} (hp : s.phase = .exec)
    (hd : decode s.latch.cmd = .ok i) : unitStep s = exec i s := by
  simp only [unitStep, hp, hd]

/-- A command issued in `IDLE` with an operand executes with that operand latched. -/
theorem issueWith_idle {i : Instr} {c : Word} {s : State} (hp : s.phase = .idle)
    (hd : decode c = .ok i) (v : Word) :
    issueWith v c s = exec i (accept c { s with opa := v, opaWr := true }) := by
  rw [issueWith, issue, busWrite_opa, busWrite_cmd, writeCmd_idle (by exact hp)]
  exact unitStep_of_decodes rfl hd

theorem issueWith_affScr {s : State} {v : Word} (hp : s.phase = .idle) (hc : s.affCtx.valid = true)
    (hv : v.toNat < 2 ^ s.affCtx.width.toNat) :
    ∃ t, issueWith v 0x3 s = .next t ∧ Completed .none t ∧ t.affCtx = s.affCtx ∧
      t.res = s.affCtx.map v := by
  have hd : decode 0x3 = .ok .affScr := by decide
  have hi : Instr.affScr ∈ [Instr.affScr, Instr.affUnscr] := by decide
  exact ⟨_, (issueWith_idle hp hd v).trans (exec_scramble hi hc rfl hv), completed_complete _ _, rfl,
    rfl⟩

/-- Settles O37: the first command leaves the unit in `IDLE` with the same context and a result in
range, and the map of the context undoes itself. -/
theorem scramblingTwiceReturnsTheValue : Obligations.ScramblingTwiceReturnsTheValue := by
  intro s v hp hinv hc hv
  obtain ⟨t, ht, hdone, hctx, hres⟩ := issueWith_affScr hp hc hv
  have hrange : t.res.toNat < 2 ^ t.affCtx.width.toNat := by
    rw [hres, hctx]
    exact hinv.map_lt hc v
  obtain ⟨u, hu, hdone', -, hres'⟩ := issueWith_affScr hdone.phase (hctx ▸ hc) hrange
  refine ⟨t, u, ht, hdone, hu, hdone', ?_⟩
  rw [hres', hctx, hres, hinv.map_map hc hv]

end Sys2Proof.Machine
end

section
/-! SUPPORT. Digit vectors and hexadecimal characters (42_fpe_integer_encoder.md R150 to R152). -/

namespace Sys2Proof.Machine

/-! ### The value of a digit vector -/

/-- The sum of 42_fpe_integer_encoder.md R150, most significant digit first. -/
theorem digitsValue_eq_sum {ld : Nat} {ds : List Digit} (h : ds.length = ld) :
    digitsValue ds = ∑ j : Fin ld, ds[j].toNat * 16 ^ (ld - 1 - j.val) := by
  subst h
  induction ds with
  | nil => rfl
  | cons d ds ih =>
    rw [digitsValue, ih]
    simp [Fin.sum_univ_succ, Nat.sub_sub, Nat.add_comm 1]

/-- Two digit vectors of one length and one value are equal. -/
theorem digitsValue_inj {ds ds' : List Digit} (hlen : ds.length = ds'.length)
    (h : digitsValue ds = digitsValue ds') : ds = ds' := by
  induction ds generalizing ds' with
  | nil => exact (List.length_eq_zero_iff.1 hlen.symm).symm
  | cons d ds ih =>
    obtain _ | ⟨d', ds'⟩ := ds'
    · cases hlen
    replace hlen : ds.length = ds'.length := Nat.succ.inj hlen
    simp only [digitsValue, hlen] at h
    have hquot := congrArg (· / 16 ^ ds'.length) h
    have hhead : d = d' := by
      apply BitVec.eq_of_toNat_eq
      simpa [Nat.mul_comm _ (16 ^ _), Nat.mul_add_div, Nat.div_eq_of_lt (digitsValue_lt ds'),
        Nat.div_eq_of_lt (hlen ▸ digitsValue_lt ds)] using hquot
    subst hhead
    rw [ih hlen (Nat.add_left_cancel h)]

/-- The digits of a value have the value's low digits for their value. -/
theorem digitsValue_map_hexDigit (ld : Nat) (v : Word) :
    digitsValue ((List.range ld).map (hexDigit ld v)) = v.toNat % 16 ^ ld := by
  induction ld with
  | zero => simp [digitsValue, Nat.mod_one]
  | succ ld ih =>
    have htail : hexDigit (ld + 1) v ∘ Nat.succ = hexDigit ld v := by
      funext j
      simp only [Function.comp, hexDigit, show ld + 1 - 1 - j.succ = ld - 1 - j by omega]
    have hhead : (hexDigit (ld + 1) v 0).toNat = v.toNat / 16 ^ ld % 16 := by
      rw [hexDigit_toNat, Nat.pow_mul]
      rfl
    rw [List.range_succ_eq_map, List.map_cons, List.map_map, htail, digitsValue, ih, hhead,
      List.length_map, List.length_range, Nat.mod_pow_succ, Nat.mul_comm, Nat.add_comm]

@[simp] theorem hexd_toList (ld : Nat) (v : Word) :
    (hexd ld v).toList = (List.range ld).map (hexDigit ld v) := rfl

theorem unhexd_hexd {ld : Nat} {v : Word} (h : v.toNat < 16 ^ ld) :
    unhexd (hexd ld v) = v.toNat := by
  rw [unhexd, hexd_toList, digitsValue_map_hexDigit, Nat.mod_eq_of_lt h]

/-- The value of up to sixteen digits fits a register. -/
theorem zext64_digitsValue_toNat {ds : List Digit} (h : ds.length ≤ 16) :
    (zext64 (digitsValue ds)).toNat = digitsValue ds :=
  zext64_toNat ((digitsValue_lt ds).trans_le (Nat.pow_le_pow_right (n := 16) (by decide) h))

/-- A digit vector is the one of its value. -/
theorem map_hexDigit_zext64 {ld : Nat} {ds : List Digit} (hlen : ds.length = ld) (hld : ld ≤ 16) :
    (List.range ld).map (hexDigit ld (zext64 (digitsValue ds))) = ds := by
  subst hlen
  apply digitsValue_inj
  · simp
  · rw [digitsValue_map_hexDigit, zext64_digitsValue_toNat hld, Nat.mod_eq_of_lt (digitsValue_lt ds)]

/-- The digits of a supported width hold its values and fit the sixteen bytes of the HEX registers. -/
theorem fpeWidth_digits {n : Nat} (hn : n ∈ [32, 64]) : 16 ^ (n / 4) = 2 ^ n ∧ n / 4 ≤ 16 := by
  simp only [List.mem_cons, List.not_mem_nil, or_false] at hn
  rcases hn with rfl | rfl <;> decide

/-- Settles O39: a digit vector and its value determine each other. -/
theorem digitVectorAndItsValue : Obligations.DigitVectorAndItsValue := by
  intro n hn
  obtain ⟨hpow, hld⟩ := fpeWidth_digits hn
  refine ⟨fun v hv => ⟨fun j hj => ?_, unhexd_hexd (hpow ▸ hv)⟩, fun d => ⟨?_, ?_, ?_⟩⟩
  · have hfield : 4 * (n / 4 - 1 - j) + 3 + 1 - 4 * (n / 4 - 1 - j) = 4 := by omega
    rw [hexd_getElem, hexDigit_toNat, bits, hfield]
    rfl
  · simpa [unhexd] using digitsValue_eq_sum d.length_toList
  · exact hpow ▸ unhexd_lt d
  · exact Vector.toList_inj.1 (map_hexDigit_zext64 d.length_toList hld)

/-! ### The characters of the digits -/

/-- The digit of a lowercase hexadecimal character; `ord_of_isHexChar` ties it to `ord`. -/
def charDigit (b : Byte) : Digit := BitVec.ofNat 4 (charValue b)

theorem isHexChar_iff (b : Byte) : isHexChar b = true ↔
    (0x30 ≤ b.toNat ∧ b.toNat ≤ 0x39) ∨ (0x61 ≤ b.toNat ∧ b.toNat ≤ 0x66) := by
  simp [isHexChar]

theorem ord_of_isHexChar {b : Byte} (h : isHexChar b = true) : ord b = some (charDigit b) := by
  rw [isHexChar_iff] at h
  unfold ord charDigit charValue
  rcases h with h | h
  · rw [if_pos h, if_pos h.2]
  · rw [if_neg (by omega), if_pos h, if_neg (by omega)]

theorem charDigit_toNat {b : Byte} (h : isHexChar b = true) : (charDigit b).toNat = charValue b := by
  rw [isHexChar_iff] at h
  refine Nat.mod_eq_of_lt ?_
  unfold charValue
  split <;> omega

theorem chr_toNat (d : Digit) :
    (chr d).toNat = if d.toNat ≤ 9 then 0x30 + d.toNat else 0x61 + (d.toNat - 10) := by
  have := d.isLt
  unfold chr
  split <;> exact Nat.mod_eq_of_lt (by omega)

theorem isHexChar_chr (d : Digit) : isHexChar (chr d) = true := by
  have := d.isLt
  rw [isHexChar_iff, chr_toNat]
  split <;> omega

theorem charDigit_chr (d : Digit) : charDigit (chr d) = d := by
  apply BitVec.eq_of_toNat_eq
  rw [charDigit_toNat (isHexChar_chr d), charValue, chr_toNat]
  split <;> split <;> omega

theorem chr_charDigit {b : Byte} (h : isHexChar b = true) : chr (charDigit b) = b := by
  apply BitVec.eq_of_toNat_eq
  rw [chr_toNat, charDigit_toNat h, charValue]
  rw [isHexChar_iff] at h
  split <;> split <;> omega

/-- Settles O40: `charDigit` undoes `chr`, and `ord` is `charDigit` on the characters. -/
theorem charactersOfDigits : Obligations.CharactersOfDigits := by
  refine ⟨fun d => ⟨?_, chr_toNat d⟩, fun b => ⟨fun h => ?_, (ord_eq_none_iff b).2⟩⟩
  · rw [ord_of_isHexChar (isHexChar_chr d), charDigit_chr]
  · rw [ord_of_isHexChar h, Option.map_some, charDigit_toNat h]

end Sys2Proof.Machine
end

section
/-! SUPPORT. `HEX_ENC` and `HEX_DEC` (42_fpe_integer_encoder.md R153, R154), and one after the other
(R155). -/

namespace Sys2Proof.Machine

/-! ### The character string in the HEX registers -/

/-- A string of characters parses to their digits (42_fpe_integer_encoder.md R154). -/
theorem parseDigits_of_isHexChar {bs : List Byte} (h : ∀ b ∈ bs, isHexChar b = true) :
    parseDigits bs = some (bs.map charDigit) := by
  induction bs with
  | nil => rfl
  | cons b bs ih =>
    rw [List.forall_mem_cons] at h
    rw [parseDigits_cons, ord_of_isHexChar h.1, ih h.2]
    rfl

/-- A register holds the bytes packed into it, and zero bytes above them (20_memory.md R55). -/
theorem packBytes_byte {bs : List Byte} (h : bs.length ≤ 8) (k : Nat) :
    (packBytes bs).toNat / 2 ^ (8 * k) % 256 = (bs[k]?.getD 0).toNat := by
  have hlt : bytesValue bs < 2 ^ 64 :=
    (bytesValue_lt bs).trans_le (Nat.pow_le_pow_right (n := 256) (by decide) h)
  rw [packBytes, BitVec.toNat_ofNat, Nat.mod_eq_of_lt hlt, Nat.pow_mul]
  exact bytesValue_byte bs k

/-- `HEX0` holds bytes 0 to 7 of the string, `HEX1` bytes 8 to 15 (42_fpe_integer_encoder.md R153). -/
theorem stringByte_hexRegs (ld : Nat) (v : Word) {k : Nat} (hk : k < 16) :
    stringByte (hexRegs ld v) k = if k < ld then chr (hexDigit ld v k) else 0 := by
  rw [← hexChars_getElem ld v k (by simpa using hk)]
  apply BitVec.eq_of_toNat_eq
  rw [stringByte_toNat _ _ (by omega)]
  obtain hlow | hhigh := Nat.lt_or_ge k 8
  · have hreg : k / 8 = 0 := by omega
    have hbyte : k % 8 = k := by omega
    simp [hexRegs, hreg, hbyte, packBytes_byte, hlow]
  · have hreg : k / 8 = 1 := by omega
    have hbyte : 8 + k % 8 = k := by omega
    simp [hexRegs, hreg, hbyte, packBytes_byte, hk]

/-- The string that `HEX_ENC` writes is the characters of the value's digits. -/
theorem stringBytes_hexRegs {ld : Nat} (hld : ld ≤ 16) (v : Word) :
    stringBytes (hexRegs ld v) ld = ((List.range ld).map (hexDigit ld v)).map chr := by
  rw [List.map_map, stringBytes, List.map_inj_left]
  intro k hk
  rw [List.mem_range] at hk
  rw [stringByte_hexRegs ld v (by omega), if_pos hk]
  rfl

/-! ### The commands -/

/-- `HEX_ENC` with its checks passed (42_fpe_integer_encoder.md R153). -/
theorem exec_hexEnc {n : Nat} {s : State} (hn : n ∈ [32, 64]) (hw : s.latch.opaWr = true)
    (hlt : s.latch.opa.toNat < 2 ^ n) :
    exec (.hexEnc n) s = .next (complete .none
      { s with hex := hexRegs (n / 4) s.latch.opa, hexWr := #v[true, true] }) := by
  rw [← validFpeWidth_iff] at hn
  rw [← inRange_iff] at hlt
  simp only [exec, execHexEnc, hn, hw, hlt, succeed, digitCount, Bool.true_eq_false, if_false]

/-- The registers that `HEX_DEC` of width `n` needs are written and hold lowercase hexadecimal
characters (42_fpe_integer_encoder.md R154). -/
structure HoldsHexString (n : Nat) (hex : Vector Word 2) (hexWr : Vector Bool 2) : Prop where
  wr0 : hexWr[0] = true
  wr1 : n = 64 → hexWr[1] = true
  chars : ∀ k < n / 4, isHexChar (stringByte hex k) = true

/-- The digits of the first `ld` characters of the string; `exec_hexDec` ties them to `HEX_DEC`. -/
def stringDigits (hex : Vector Word 2) (ld : Nat) : List Digit := (stringBytes hex ld).map charDigit

@[simp] theorem stringDigits_length (hex : Vector Word 2) (ld : Nat) :
    (stringDigits hex ld).length = ld := by
  simp [stringDigits]

theorem HoldsHexString.parseDigits_eq {n : Nat} {hex : Vector Word 2} {hexWr : Vector Bool 2}
    (h : HoldsHexString n hex hexWr) :
    parseDigits (stringBytes hex (n / 4)) = some (stringDigits hex (n / 4)) := by
  apply parseDigits_of_isHexChar
  simpa [stringBytes] using h.chars

/-- The characters of a string's digits are the string. -/
theorem HoldsHexString.map_chr_stringDigits {n : Nat} {hex : Vector Word 2} {hexWr : Vector Bool 2}
    (h : HoldsHexString n hex hexWr) :
    (stringDigits hex (n / 4)).map chr = stringBytes hex (n / 4) := by
  simp only [stringDigits, stringBytes, List.map_map, List.map_inj_left, List.mem_range]
  exact fun k hk => chr_charDigit (h.chars k hk)

theorem HoldsHexString.digitsValue_eq {n : Nat} {hex : Vector Word 2} {hexWr : Vector Bool 2}
    (h : HoldsHexString n hex hexWr) : digitsValue (stringDigits hex (n / 4))
      = ∑ k ∈ Finset.range (n / 4), charValue (stringByte hex k) * 16 ^ (n / 4 - 1 - k) := by
  rw [digitsValue_eq_sum (stringDigits_length hex (n / 4)), Finset.sum_range]
  refine Finset.sum_congr rfl fun k _ => ?_
  simp [stringDigits, charDigit_toNat (h.chars k k.isLt)]

/-- `HEX_DEC` with its checks passed (42_fpe_integer_encoder.md R154). -/
theorem exec_hexDec {n : Nat} {s : State} (hn : n ∈ [32, 64])
    (h : HoldsHexString n s.latch.hex s.latch.hexWr) :
    exec (.hexDec n) s = .next (complete .none
      { s with res := zext64 (digitsValue (stringDigits s.latch.hex (n / 4))) }) := by
  have hwr1 : ¬ (n = 64 ∧ s.latch.hexWr[1] = false) := fun ⟨h64, hf⟩ => by simp [h.wr1 h64] at hf
  rw [← validFpeWidth_iff] at hn
  simp only [exec, execHexDec, hn, h.wr0, hwr1, digitCount, h.parseDigits_eq, succeed,
    Bool.true_eq_false, if_false]

/-- Settles O41: `HEX_ENC` completes with the string of the operand's digits. -/
theorem hexEncWritesTheCharacters : Obligations.HexEncWritesTheCharacters := by
  intro n s hn hw hlt
  refine ⟨_, exec_hexEnc hn hw hlt, completed_complete _ _, frame_complete_hex _ _ _ _, rfl, rfl,
    fun k hk => ?_⟩
  have hdigit : hexDigit (n / 4) s.latch.opa k
      = BitVec.ofNat 4 (digitAt (n / 4) s.latch.opa.toNat k) := by
    apply BitVec.eq_of_toNat_eq
    simp [hexDigit_toNat, digitAt, Nat.pow_mul]
  rw [complete_hex, stringByte_hexRegs _ _ hk, hdigit]

/-- Settles O42: `HEX_DEC` completes with the value of the characters' digits. -/
theorem hexDecReadsTheCharacters : Obligations.HexDecReadsTheCharacters := by
  intro n s hn h0 h1 hc
  have h : HoldsHexString n s.latch.hex s.latch.hexWr := ⟨h0, h1, hc⟩
  obtain ⟨-, hld⟩ := fpeWidth_digits hn
  refine ⟨_, exec_hexDec hn h, completed_complete _ _, frame_complete_res _ _ _, ?_⟩
  rw [complete_res, zext64_digitsValue_toNat (by simpa using hld), h.digitsValue_eq]

/-! ### Two commands -/

/-- A command issued in `IDLE` executes with the registers latched. -/
theorem issue_idle {i : Instr} {c : Word} {s : State} (hp : s.phase = .idle)
    (hd : decode c = .ok i) : issue c s = exec i (accept c s) := by
  rw [issue, busWrite_cmd, writeCmd_idle hp]
  exact unitStep_of_decodes rfl hd

theorem widthFits_of_fpeWidth {n : Nat} (hn : n ∈ [32, 64]) : widthFits n = true := by
  simp only [List.mem_cons, List.not_mem_nil, or_false] at hn
  rcases hn with rfl | rfl <;> decide

theorem issueWith_hexEnc {n : Nat} {s : State} {v : Word} (hn : n ∈ [32, 64])
    (hp : s.phase = .idle) (hv : v.toNat < 2 ^ n) :
    ∃ t, issueWith v (encode (.hexEnc n)) s = .next t ∧ Completed .none t ∧
      t.hex = hexRegs (n / 4) v ∧ t.hexWr = #v[true, true] := by
  have hd := decodeUndoesEncode (.hexEnc n) (widthFits_of_fpeWidth hn)
  exact ⟨_, (issueWith_idle hp hd v).trans (exec_hexEnc hn rfl hv), completed_complete _ _, rfl, rfl⟩

theorem issue_hexDec {n : Nat} {s : State} (hn : n ∈ [32, 64]) (hp : s.phase = .idle)
    (h : HoldsHexString n s.hex s.hexWr) :
    ∃ t, issue (encode (.hexDec n)) s = .next t ∧ Completed .none t ∧
      t.res = zext64 (digitsValue (stringDigits s.hex (n / 4))) := by
  have hd := decodeUndoesEncode (.hexDec n) (widthFits_of_fpeWidth hn)
  exact ⟨_, (issue_idle hp hd).trans (exec_hexDec hn h), completed_complete _ _, rfl⟩

theorem holdsHexString_hexRegs {n : Nat} (hn : n ∈ [32, 64]) (v : Word) :
    HoldsHexString n (hexRegs (n / 4) v) #v[true, true] := by
  obtain ⟨-, hld⟩ := fpeWidth_digits hn
  refine ⟨rfl, fun _ => rfl, fun k hk => ?_⟩
  rw [stringByte_hexRegs _ _ (by omega), if_pos hk]
  exact isHexChar_chr _

/-- The digits of the string that `HEX_ENC` writes are the value's. -/
theorem stringDigits_hexRegs {ld : Nat} (hld : ld ≤ 16) (v : Word) :
    stringDigits (hexRegs ld v) ld = (List.range ld).map (hexDigit ld v) := by
  rw [stringDigits, stringBytes_hexRegs hld, List.map_map, show charDigit ∘ chr = id from
    funext charDigit_chr, List.map_id]

/-- Settles O43: `HEX_DEC` finds the digits of the value in the string that `HEX_ENC` wrote. -/
theorem encodeThenDecodeReturnsTheValue : Obligations.EncodeThenDecodeReturnsTheValue := by
  intro n s v hn hp hv
  obtain ⟨hpow, hld⟩ := fpeWidth_digits hn
  obtain ⟨t, ht, hdone, hhex, hwr⟩ := issueWith_hexEnc hn hp hv
  have hstring : HoldsHexString n t.hex t.hexWr := by
    rw [hhex, hwr]
    exact holdsHexString_hexRegs hn v
  obtain ⟨u, hu, hdone', hres⟩ := issue_hexDec hn hdone.phase hstring
  refine ⟨t, u, ht, hdone, hu, hdone', ?_⟩
  rw [hres, hhex, stringDigits_hexRegs hld, digitsValue_map_hexDigit, hpow, Nat.mod_eq_of_lt hv]
  exact (BitVec.ofNat_toNat 64 v).trans (BitVec.setWidth_eq v)

/-- Settles O44: the digits that `HEX_DEC` reads are the digits of its result, and `HEX_ENC` writes
their characters. -/
theorem decodeThenEncodeReturnsTheString : Obligations.DecodeThenEncodeReturnsTheString := by
  intro n s hn hp h0 h1 hc
  obtain ⟨hpow, hld⟩ := fpeWidth_digits hn
  have hstring : HoldsHexString n s.hex s.hexWr := ⟨h0, h1, hc⟩
  have hlen := stringDigits_length s.hex (n / 4)
  obtain ⟨t, ht, hdone, hres⟩ := issue_hexDec hn hp hstring
  have hrange : t.res.toNat < 2 ^ n := by
    rw [hres, zext64_digitsValue_toNat (hlen.trans_le hld), ← hpow]
    exact (digitsValue_lt _).trans_eq (by rw [hlen])
  obtain ⟨u, hu, hdone', hhex, -⟩ := issueWith_hexEnc hn hdone.phase hrange
  have hbytes : stringBytes u.hex (n / 4) = stringBytes s.hex (n / 4) := by
    rw [hhex, stringBytes_hexRegs hld, hres, map_hexDigit_zext64 hlen hld,
      hstring.map_chr_stringDigits]
  refine ⟨t, u, ht, hdone, hu, hdone', ?_⟩
  simpa [stringBytes] using hbytes

end Sys2Proof.Machine
end

section
/-! SUPPORT. The FPE context (10_state.md R39): what `FPE_LOAD` constructs from the KEY registers
(43_fpe_scrambler.md R180, R181), what `FPE_CLEAR` empties (R186), and that every step keeps its
invariant. -/

namespace Sys2Proof.Machine

/-! ### The context of a key -/

theorem keySize_le {k : Nat} (hk : k ∈ [16, 24, 32]) : k ≤ 32 := by
  revert k
  decide

theorem FpeCtx.ofKey_width_toNat {n : Nat} (hn : n ∈ [32, 64]) (k : Nat) (regs : Vector Word 4) :
    (FpeCtx.ofKey n k regs).width.toNat = n := by
  have hfits := widthFits_of_fpeWidth hn
  simp only [widthFits, decide_eq_true_eq] at hfits
  exact Nat.mod_eq_of_lt (by omega)

theorem FpeCtx.ofKey_keylen_toNat (n : Nat) {k : Nat} (hk : k ∈ [16, 24, 32])
    (regs : Vector Word 4) : (FpeCtx.ofKey n k regs).keylen.toNat = k := by
  have hle := keySize_le hk
  exact Nat.mod_eq_of_lt (by omega)

/-- The key of the context: the first `k` bytes of the KEY registers, then zero bytes
(43_fpe_scrambler.md R180). -/
theorem FpeCtx.ofKey_key_getElem (n k : Nat) (regs : Vector Word 4) (j : Nat) (hj : j < 32) :
    (FpeCtx.ofKey n k regs).key[j] = if j < k then stringByte regs j else 0 := by
  by_cases hjk : j < k <;> simp [FpeCtx.ofKey, padKey_getElem, stringBytes, hjk]

/-- A byte of a string is the low eight bits of its shifted register (20_memory.md R55). -/
theorem stringByte_eq_ofNat {m : Nat} (regs : Vector Word m) (j : Nat) (h : j / 8 < m) :
    stringByte regs j = BitVec.ofNat 8 (regs[j / 8].toNat / 2 ^ (8 * (j % 8))) :=
  BitVec.eq_of_toNat_eq (stringByte_toNat regs j h)

theorem fpeCtxInv_ofKey {n k : Nat} (hn : n ∈ [32, 64]) (hk : k ∈ [16, 24, 32])
    (regs : Vector Word 4) : FpeCtxInv (FpeCtx.ofKey n k regs) := by
  have hkeylen := FpeCtx.ofKey_keylen_toNat n hk regs
  refine ⟨fun _ => ?_, fun _ => ?_, fun _ j hj hle => ?_, fun hv => Bool.noConfusion hv⟩
  · rwa [FpeCtx.ofKey_width_toNat hn]
  · rwa [hkeylen]
  · rw [hkeylen] at hle
    rw [FpeCtx.ofKey_key_getElem, if_neg (Nat.not_lt.2 hle)]

/-! ### The invariant -/

/-- A command leaves the FPE context, clears it (`FPE_CLEAR`), or constructs it from the latched key,
its checks passed (`FPE_LOAD`). -/
theorem exec_fpeCtx_cases {i : Instr} {s t : State} (h : exec i s = .next t) :
    t.fpeCtx = s.fpeCtx ∨ t.fpeCtx = FpeCtx.cleared ∨
    ∃ n ∈ [32, 64], ∃ k ∈ [16, 24, 32], t.fpeCtx = FpeCtx.ofKey n k s.latch.key := by
  rcases exec_cases h with ⟨code, -, rfl⟩ | ⟨-, rfl⟩ | ⟨n, -, -, -, -, -, rfl⟩ |
    ⟨n, -, -, -, -, -, -, rfl⟩ | ⟨-, -, -, -, rfl⟩ | ⟨-, rfl⟩ | ⟨n, -, -, -, -, rfl⟩ |
    ⟨n, ds, -, -, -, -, -, rfl⟩ | ⟨n, k, -, hn, hk, -, rfl⟩ | ⟨dir, -, -, -, -, rfl⟩ | ⟨-, rfl⟩
  any_goals exact .inl rfl
  · exact .inr (.inr ⟨n, (validFpeWidth_iff n).1 hn, k, (validKeySize_iff k).1 hk, rfl⟩)
  · exact .inr (.inl rfl)

theorem fpeCtxInv_exec {i : Instr} {s t : State} (hi : FpeCtxInv s.fpeCtx)
    (h : exec i s = .next t) : FpeCtxInv t.fpeCtx := by
  rcases exec_fpeCtx_cases h with hc | hc | ⟨n, hn, k, hk, hc⟩ <;> rw [hc]
  · exact hi
  · exact fpeCtxInv_cleared
  · exact fpeCtxInv_ofKey hn hk _

theorem fpeCtxInv_unitStep {s t : State} (hi : FpeCtxInv s.fpeCtx) (h : unitStep s = .next t) :
    FpeCtxInv t.fpeCtx := by
  rcases unitStep_cases h with ⟨-, rfl⟩ | ⟨-, i, -, h⟩ | ⟨-, -, rfl⟩
  · exact hi
  · exact fpeCtxInv_exec hi h
  · exact hi

theorem primStep_fpeCtx {p : FpePrim} {s t : State} (h : primStep p s = .next t) :
    t.fpeCtx = s.fpeCtx := by
  rcases primStep_ends h with rfl | ⟨r, -, -, h⟩
  · rfl
  · exact h.frame.fpe rfl

/-- Settles O56, move by move: `FPE_LOAD` constructs a context of a supported width and key size with
a padded key, `FPE_CLEAR` and a reset clear the context, and nothing else writes it. -/
theorem stepKeepsTheFpeContext : Obligations.StepKeepsTheFpeContext := by
  refine stepWith_keeps (I := fun s => FpeCtxInv s.fpeCtx) ?_ ?_ ?_ ?_ ?_
  · exact fun _ _ _ hi => hi
  · exact fun s t => fpeCtxInv_unitStep
  · exact fun s t hi h => (primStep_fpeCtx h).symm ▸ hi
  · intro s off v hi
    obtain ⟨-, hfpe⟩ := busWrite_contexts off v s
    rwa [hfpe]
  · exact fun _ => fpeCtxInv_cleared

/-! ### `FPE_LOAD` -/

theorem keyWritten_iff (k : Nat) (l : Latch) :
    keyWritten k l = true ↔ ∀ r (_ : r < 4), r < k / 8 → l.keyWr[r] = true := by
  simp only [keyWritten, List.all_eq_true, List.mem_take_iff_getElem]
  simpa using forall_congr' fun r => forall_comm

/-- `FPE_LOAD` with its checks passed (43_fpe_scrambler.md R180). -/
theorem exec_fpeLoad {n k : Nat} {s : State} (hn : n ∈ [32, 64]) (hk : k ∈ [16, 24, 32])
    (hw : keyWritten k s.latch = true) :
    exec (.fpeLoad n k) s =
      .next (complete .none { s with fpeCtx := FpeCtx.ofKey n k s.latch.key }) := by
  rw [← validFpeWidth_iff] at hn
  rw [← validKeySize_iff] at hk
  simp only [exec, execFpeLoad, hn, hk, hw, succeed, Bool.true_eq_false, if_false]

theorem exec_fpeLoad_nullOperand {n k : Nat} {s : State} (hn : n ∈ [32, 64])
    (hk : k ∈ [16, 24, 32]) (hw : keyWritten k s.latch = false) :
    exec (.fpeLoad n k) s = raise .nullOperand s := by
  rw [← validFpeWidth_iff] at hn
  rw [← validKeySize_iff] at hk
  simp only [exec, execFpeLoad, hn, hk, hw, Bool.true_eq_false, if_false, if_true]

/-- Settles O45: with its checks passed `FPE_LOAD` completes with the context of the latched key. -/
theorem fpeLoadConstructsTheContext : Obligations.FpeLoadConstructsTheContext := by
  intro n k s hn hk hw
  refine ⟨_, exec_fpeLoad hn hk ((keyWritten_iff k s.latch).2 hw), completed_complete _ _,
    frame_complete_fpe _ _ _, rfl, FpeCtx.ofKey_width_toNat hn k _, FpeCtx.ofKey_keylen_toNat n hk _,
    fun j hj => ?_⟩
  rw [← stringByte_eq_ofNat s.latch.key j (by omega)]
  exact FpeCtx.ofKey_key_getElem n k s.latch.key j hj

/-! ### `FPE_CLEAR` -/

theorem keyWritten_of_clearedFlags {k : Nat} (hk : k ∈ [16, 24, 32]) {l : Latch}
    (hl : l.keyWr = Vector.replicate 4 false) : keyWritten k l = false := by
  simp only [List.mem_cons, List.not_mem_nil, or_false] at hk
  rcases hk with rfl | rfl | rfl <;> rw [keyWritten, hl] <;> decide

/-- Settles O51: `FPE_CLEAR` has no checks, and a load accepted after it latches the cleared flags of
the KEY registers. -/
theorem fpeClearWipesTheKey : Obligations.FpeClearWipesTheKey := by
  intro s
  refine ⟨_, rfl, completed_complete _ _, frame_complete_fpe_key _ _ _ _ _, rfl, fun i hi => ?_,
    fun n k hn hk => ?_⟩
  · simp
  · have hfits : (Instr.fpeLoad n k).wellFormed = true := by
      have hle := keySize_le hk
      simp [Instr.wellFormed, widthFits_of_fpeWidth hn, klenFits, show k ≤ 63 by omega]
    exact ⟨_, (issue_idle rfl (decodeUndoesEncode _ hfits)).trans
      (exec_fpeLoad_nullOperand hn hk (keyWritten_of_clearedFlags hk rfl)), completed_complete _ _⟩

end Sys2Proof.Machine
end

section
/-! SUPPORT. `FPE_SCR` and `FPE_UNSCR` (43_fpe_scrambler.md R182, R185): the call of the primitive and
its answer (R172, R174), and one command after the other (R187, R188). -/

namespace Sys2Proof.Machine

/-! ### The call and the answer -/

theorem exec_dirCommand (dir : Dir) (s : State) : exec dir.command s = fpeCall dir s := by
  cases dir <;> rfl

/-- A scramble with its checks passed (43_fpe_scrambler.md R182, R185). -/
theorem exec_fpeScramble (dir : Dir) {s : State} (hc : s.fpeCtx.valid = true)
    (hw : s.latch.opaWr = true) (hlt : s.latch.opa.toNat < 2 ^ s.fpeCtx.width.toNat) :
    exec dir.command s = .next (startPrim (primRequest dir s.fpeCtx s.latch.opa) s) := by
  rw [← inRange_iff] at hlt
  rw [exec_dirCommand]
  simp only [fpeCall, hc, hw, hlt, Bool.true_eq_false, if_false]

/-- Settles O46: with its checks passed a scramble makes the request of its direction, the context and
the latched operand. -/
theorem fpeScrambleCallsThePrimitive : Obligations.FpeScrambleCallsThePrimitive := by
  intro x hx s hc hw hlt
  have hcmd : x.1 = x.2.command := by revert x; decide
  refine ⟨primRequest x.2 s.fpeCtx s.latch.opa, hcmd ▸ exec_fpeScramble x.2 hc hw hlt, rfl, rfl, rfl,
    rfl, fun j hj => ?_⟩
  calc _ = (hexDigit (s.fpeCtx.width.toNat / 4) s.latch.opa j).toNat :=
        congrArg BitVec.toNat (hexd_getElem _ _ j hj)
    _ = digitAt (s.fpeCtx.width.toNat / 4) s.latch.opa.toNat j := by
        rw [hexDigit_toNat, digitAt, Nat.pow_mul]

/-- The primitive's move on a request is its answer to it (60_exceptions.md R205). -/
theorem primStep_of_waiting (p : FpePrim) {s : State} {r : PrimReq} (hp : s.phase = .waitPrim)
    (hr : s.preq = some r) : primStep p s = takeAnswer r (primResult p r) s := by
  simp only [primStep, hp, hr]

/-- Settles O47, answer by answer: each ends the command with its code once the request is consumed. -/
theorem answersMapToOutcomes : Obligations.AnswersMapToOutcomes := by
  intro p s r hp hr
  rw [primStep_of_waiting p hp hr]
  cases primResult p r with
  | ok c =>
    refine ⟨_, rfl, fun c' hc => ⟨completed_complete _ _,
      frame_complete_res _ { s with preq := none } _, ?_⟩, nofun, nofun⟩
    cases hc
    rfl
  | reject =>
    exact ⟨_, rfl, nofun, fun _ => ⟨completed_complete _ _, frame_complete_self _ _⟩, nofun⟩
  | fail =>
    refine ⟨_, rfl, nofun, nofun, fun _ => ⟨?_, frame_complete_self _ _⟩⟩
    cases r.dir <;> exact completed_complete _ _

/-! ### One command up to its end -/

/-- What the primitive answers to the request for the value `v` under the context `c`;
`issueToPrim_eq` ties it to the commands. -/
def FpeCtx.answer (c : FpeCtx) (p : FpePrim) (dir : Dir) (v : Word) :
    PrimResult (c.width.toNat / 4) :=
  primResult p (primRequest dir c v)

/-- A command has completed with the value of the digits `d` for its result, and left the FPE context
`c`. -/
structure Delivered (c : FpeCtx) (d : Vector Digit (c.width.toNat / 4)) (t : State) : Prop where
  completed : Completed .none t
  context : t.fpeCtx = c
  result : t.res = zext64 (unhexd d)

theorem decode_fpeScr : decode 0x9 = .ok Dir.enc.command := by decide

theorem decode_fpeUnscr : decode 0xA = .ok Dir.dec.command := by decide

section
variable {dir : Dir} {w v : Word} {s : State} {c : FpeCtx} (hd : decode w = .ok dir.command)
  (hp : s.phase = .idle) (hctx : s.fpeCtx = c) (hc : c.valid = true)
  (hv : v.toNat < 2 ^ c.width.toNat)
include hd hp hctx hc hv

/-- A scramble issued in `IDLE` with an operand in range ends as the primitive's answer says. -/
theorem issueToPrim_eq (p : FpePrim) : issueToPrim p v w s =
    takeAnswer (primRequest dir c v) (c.answer p dir v)
      (startPrim (primRequest dir c v) (accept w { s with opa := v, opaWr := true })) := by
  subst hctx
  have hcall := (issueWith_idle hp hd v).trans (exec_fpeScramble dir hc rfl hv)
  simp only [issueToPrim, hcall]
  exact primStep_of_waiting p rfl rfl

theorem issueToPrim_of_ok {p : FpePrim} {d : Vector Digit (c.width.toNat / 4)}
    (ha : c.answer p dir v = .ok d) : ∃ t, issueToPrim p v w s = .next t ∧ Delivered c d t := by
  rw [issueToPrim_eq hd hp hctx hc hv, ha]
  exact ⟨_, rfl, completed_complete _ _, hctx, rfl⟩

/-- A scramble that ends without an error has been answered `OK` (43_fpe_scrambler.md R174). -/
theorem ok_of_issueToPrim {p : FpePrim} {t : State} (h : issueToPrim p v w s = .next t)
    (herr : t.status.err = false) : ∃ d, c.answer p dir v = .ok d ∧ Delivered c d t := by
  rw [issueToPrim_eq hd hp hctx hc hv] at h
  rcases takeAnswer_cases h with ⟨d, ha, rfl⟩ | ⟨-, rfl⟩ | ⟨-, rfl⟩
  · exact ⟨d, ha, completed_complete _ _, hctx, rfl⟩
  · cases herr
  · cases dir <;> cases herr

end

/-! ### Requests under a context a run can hold -/

section
variable {c : FpeCtx} (hi : FpeCtxInv c) (hc : c.valid = true)
include hi hc

/-- The key of a request has one of the key lengths of the port's type (43_fpe_scrambler.md R171). -/
theorem FpeCtxInv.key_length : c.primConfig.key.length ∈ [16, 24, 32] := by
  have hk := hi.keylen hc
  have hle := keySize_le hk
  rwa [primConfig_key, List.length_take, Vector.length_toList, Nat.min_eq_left hle]

/-- The digit count of a request is one of those of the port's type (43_fpe_scrambler.md R171). -/
theorem FpeCtxInv.digits_mem : c.width.toNat / 4 ∈ [8, 16] := by
  have hw := hi.width hc
  generalize c.width.toNat = n at hw
  revert n
  decide

/-- A value in range is the value of its digits (42_fpe_integer_encoder.md R150). -/
theorem FpeCtxInv.zext64_unhexd_hexd {v : Word} (hv : v.toNat < 2 ^ c.width.toNat) :
    zext64 (unhexd (hexd (c.width.toNat / 4) v)) = v := by
  obtain ⟨hpow, -⟩ := fpeWidth_digits (hi.width hc)
  rw [unhexd_hexd (hpow ▸ hv)]
  exact (BitVec.ofNat_toNat 64 v).trans (BitVec.setWidth_eq v)

/-- The digits of a result are the digits that the primitive answered. -/
theorem FpeCtxInv.hexd_zext64_unhexd (d : Vector Digit (c.width.toNat / 4)) :
    hexd (c.width.toNat / 4) (zext64 (unhexd d)) = d :=
  Vector.toList_inj.1 (map_hexDigit_zext64 d.length_toList (fpeWidth_digits (hi.width hc)).2)

theorem FpeCtxInv.result_lt (d : Vector Digit (c.width.toNat / 4)) :
    (zext64 (unhexd d)).toNat < 2 ^ c.width.toNat := by
  obtain ⟨hpow, hld⟩ := fpeWidth_digits (hi.width hc)
  rw [unhexd, zext64_digitsValue_toNat (d.length_toList.trans_le hld), ← hpow]
  exact unhexd_lt d

theorem FpeCtxInv.enc_ok {p : FpePrim} (hok : p.AlwaysOk) (v : Word) :
    ∃ d, c.answer p .enc v = .ok d :=
  hok _ _ _ (hi.key_length hc) (hi.digits_mem hc)

section
variable {p : FpePrim} (hrt : p.RoundTrip) {v w : Word} {d : Vector Digit (c.width.toNat / 4)}
include hrt

/-- P-RT on the requests of the context: the request to decrypt a result is answered with the digits
of the value (43_fpe_scrambler.md R173). -/
theorem FpeCtxInv.dec_of_enc (ha : c.answer p .enc v = .ok d) :
    c.answer p .dec (zext64 (unhexd d)) = .ok (hexd (c.width.toNat / 4) v) := by
  have hdec := hrt _ _ _ _ (hi.key_length hc) (hi.digits_mem hc) ha
  rwa [← hi.hexd_zext64_unhexd hc d] at hdec

/-- Under P-RT two values in range whose requests have one answer are equal. -/
theorem FpeCtxInv.enc_injective (hv : v.toNat < 2 ^ c.width.toNat)
    (hw : w.toNat < 2 ^ c.width.toNat) (ha : c.answer p .enc v = .ok d)
    (ha' : c.answer p .enc w = .ok d) : v = w := by
  have hdigits : hexd (c.width.toNat / 4) v = hexd (c.width.toNat / 4) w :=
    PrimResult.ok.inj ((hi.dec_of_enc hc hrt ha).symm.trans (hi.dec_of_enc hc hrt ha'))
  rw [← hi.zext64_unhexd_hexd hc hv, hdigits, hi.zext64_unhexd_hexd hc hw]

end

/-- The result of one command is in range for the next. -/
theorem Delivered.res_lt {d : Vector Digit (c.width.toNat / 4)} {t : State}
    (h : Delivered c d t) : t.res.toNat < 2 ^ c.width.toNat := by
  rw [h.result]
  exact hi.result_lt hc d

end

/-! ### Two commands -/

/-- Settles O48: the first command has been answered `OK`, and under P-RT the second is answered with
the digits of the value. -/
theorem fpeUnscrambleUndoesScramble : Obligations.FpeUnscrambleUndoesScramble := by
  intro p s t v hrt hp hi hc hv ht herr
  obtain ⟨d, ha, hdel⟩ := ok_of_issueToPrim decode_fpeScr hp rfl hc hv ht herr
  have ha' := hi.dec_of_enc hc hrt ha
  rw [← hdel.result] at ha'
  obtain ⟨u, hu, hdel'⟩ := issueToPrim_of_ok decode_fpeUnscr hdel.completed.phase hdel.context hc
    (hdel.res_lt hi hc) ha'
  exact ⟨u, hu, hdel'.completed, hdel'.result.trans (hi.zext64_unhexd_hexd hc hv)⟩

/-- Settles O49: every request to encrypt is answered `OK`, and under P-RT equal results come from
equal values. -/
theorem fpeScrambleIsAPermutation : Obligations.FpeScrambleIsAPermutation := by
  intro p s hrt hrej hfail hp hi hc
  have hok := p.alwaysOk_iff.2 ⟨hrej, hfail⟩
  refine ⟨fun v hv => ?_, fun v w t u hv hw ht hu hres => ?_⟩
  · obtain ⟨d, ha⟩ := hi.enc_ok hc hok v
    obtain ⟨t, ht, hdel⟩ := issueToPrim_of_ok decode_fpeScr hp rfl hc hv ha
    exact ⟨t, ht, hdel.completed, hdel.res_lt hi hc⟩
  · obtain ⟨d, ha⟩ := hi.enc_ok hc hok v
    obtain ⟨e, ha'⟩ := hi.enc_ok hc hok w
    obtain ⟨t', ht', hdel⟩ := issueToPrim_of_ok decode_fpeScr hp rfl hc hv ha
    obtain ⟨u', hu', hdel'⟩ := issueToPrim_of_ok decode_fpeScr hp rfl hc hw ha'
    cases ht.symm.trans ht'
    cases hu.symm.trans hu'
    have hde : d = e := by
      rw [← hi.hexd_zext64_unhexd hc d, ← hdel.result, hres, hdel'.result,
        hi.hexd_zext64_unhexd hc e]
    exact hi.enc_injective hc hrt hv hw ha (hde ▸ ha')

/-! ### No involution -/

/-- A primitive that adds 1 to every digit and so is undone by subtracting 1, not by adding it
again. -/
def digitShift : FpePrim where
  enc := fun _ _ d => .ok (d.map (· + 1))
  dec := fun _ _ d => .ok (d.map (· - 1))

theorem digitShift_roundTrip : digitShift.RoundTrip := by
  intro key ld d c _ _ h
  cases h
  simp [digitShift, Function.comp_def]

theorem answer_digitShift (c : FpeCtx) (v : Word) :
    c.answer digitShift .enc v = .ok ((hexd (c.width.toNat / 4) v).map (· + 1)) := rfl

/-- The unit after reset with an FPE context of width 32 and a key of sixteen zero bytes. -/
def zeroKeyLoaded : State :=
  { State.reset with fpeCtx := FpeCtx.ofKey 32 16 (Vector.replicate 4 0) }

/-- Settles O50: `digitShift` takes 0 to 0x11111111 and that to 0x22222222. -/
theorem fpeScrambleIsNoInvolution : Obligations.FpeScrambleIsNoInvolution := by
  have hi : FpeCtxInv zeroKeyLoaded.fpeCtx := fpeCtxInv_ofKey (by decide) (by decide) _
  have hc : zeroKeyLoaded.fpeCtx.valid = true := rfl
  have hv : (0 : Word).toNat < 2 ^ zeroKeyLoaded.fpeCtx.width.toNat := by decide
  obtain ⟨t, ht, hdel⟩ := issueToPrim_of_ok decode_fpeScr rfl rfl hc hv (answer_digitShift _ _)
  obtain ⟨u, hu, hdel'⟩ := issueToPrim_of_ok decode_fpeScr hdel.completed.phase hdel.context hc
    (hdel.res_lt hi hc) (answer_digitShift _ _)
  refine ⟨digitShift, zeroKeyLoaded, t, u, 0, digitShift_roundTrip, rfl, hi, hc, hv, ht,
    hdel.completed, hu, hdel'.completed, ?_⟩
  rw [hdel'.result, hdel.result, hi.hexd_zext64_unhexd hc, unhexd, Vector.toList_map,
    Vector.toList_map]
  decide

end Sys2Proof.Machine
end

section
/-! SUPPORT. `NOP` (44_nop.md R195): it has no checks and no writes. -/

namespace Sys2Proof.Machine

/-- `NOP` does nothing but complete. -/
theorem exec_nop (s : State) : exec .nop s = .next (complete .none s) := rfl

/-- Settles O52: all that an issued `NOP` changes is what its acceptance and its completion change. -/
theorem nopOnlyAcknowledges : Obligations.NopOnlyAcknowledges := by
  refine ⟨fun s => ⟨_, exec_nop s, completed_complete _ _, frame_complete_self _ _⟩, fun s hp => ?_⟩
  obtain ⟨hd, -⟩ := tableWordsDecode
  have hf : Frame {} (accept 0x0 s) (complete .none (accept 0x0 s)) := frame_complete_self _ _
  exact ⟨_, (issue_idle hp hd).trans (exec_nop _), completed_complete _ _, hf.ovr, hf.cmd,
    hf.opa.left, hf.res rfl, (hf.key rfl).left, (hf.hex rfl).left, hf.aff rfl, hf.fpe rfl⟩

end Sys2Proof.Machine
end

section
/-! SUPPORT. The life of a command (60_exceptions.md): its acceptance (R200), its execution (R201), its
first error or its success (R202, R204), what `STATUS` shows at its completion (R203), and its wait for
the primitive (R205). -/

namespace Sys2Proof.Machine

/-! ### Acceptance -/

/-- Settles O7: the acceptance latches the value that the unit's next move finds illegal. -/
theorem commandWriteIsAcceptedWhenIdle : Obligations.CommandWriteIsAcceptedWhenIdle := by
  refine fun c s => ⟨fun hp => ?_, fun hp hl => ?_, fun hp => ?_⟩
  · exact writeCmd_idle hp c
  · rw [busWrite_cmd, writeCmd_idle hp]
    exact ⟨_, unitStep_of_illegal (accept_phase c s) hl, completed_complete _ _⟩
  · exact writeCmd_busy hp c

/-! ### Execution -/

/-- The unit moves where the schedule names it, and where it names no one (assumption 2). -/
theorem stepWith_unit (p : FpePrim) {s : State}
    (hu : s.sched = [] ∨ s.sched.head? = some .unit) :
    stepWith p s = unitStep { s with sched := s.sched.tail } := by
  unfold stepWith
  split
  · next hs =>
    rw [hs, List.tail_nil, ← hs]
  · next m rest hs =>
    have hm : m = .unit := by simpa [hs] using hu
    rw [hs, hm]
    rfl

/-- Settles O6: the step is the unit's move, which executes what the latch decodes to. -/
theorem stepRunsDecodedCommand : Obligations.StepRunsDecodedCommand := fun s i hp hu hd =>
  calc step s = unitStep { s with sched := s.sched.tail } := stepWith_unit _ hu
    _ = exec i { s with sched := s.sched.tail } := unitStep_of_decodes hp hd

/-! ### Errors and success -/

/-- Settles O10: a command with an error cause is a completion with the first, and nothing else. -/
theorem firstErrorIsReported : Obligations.FirstErrorIsReported := fun i s he =>
  ⟨complete (firstError i s) s, (exec_eq_perform i s).trans (if_neg he), completed_complete _ _,
    frame_complete_self _ _⟩

/-- Without an error cause an FPE scramble calls the primitive, and every other command succeeds. -/
theorem perform_outcome (i : Instr) (s : State) : ∃ t, perform i s = .next t ∧
    if i = .fpeScr ∨ i = .fpeUnscr then t.phase = .waitPrim else Completed .none t := by
  cases i with
  | fpeScr | fpeUnscr => exact ⟨_, rfl, by simp⟩
  | nop | inv | affLoad | affScr | affUnscr | affClear | hexEnc | hexDec | fpeLoad | fpeClear =>
    exact ⟨_, rfl, by simpa using completed_complete _ _⟩

/-- Settles O11: a command without an error cause performs. -/
theorem noErrorMeansSuccess : Obligations.NoErrorMeansSuccess := by
  intro i s he
  rw [exec_eq_perform, if_pos he]
  exact perform_outcome i s

/-! ### `STATUS` at a completion -/

/-- Code 0 is the code of success (60_exceptions.md R203). -/
theorem ErrCode.number_eq_zero_iff (c : ErrCode) : c.number = 0 ↔ c = .none := by
  cases c <;> decide

/-- The fields of `STATUS` that a completion sets, as the host reads them (10_state.md R24). -/
theorem Completed.statusBits {code : ErrCode} {t : State} (h : Completed code t) :
    bits (busRead 0x08 t) 11 8 = code.number ∧
    bits (busRead 0x08 t) 2 2 = (if code.number = 0 then 0 else 1) ∧
    bits (busRead 0x08 t) 0 0 = 0 ∧ bits (busRead 0x08 t) 1 1 = 1 := by
  obtain ⟨hbusy, hdone, herr, -, -, -, -, hcode, -⟩ := statusWord_fields t
  have herr' : t.status.err = decide (code.number ≠ 0) := by
    rw [Bool.eq_iff_iff, h.err, decide_eq_true_eq, ne_eq, ne_eq, code.number_eq_zero_iff]
  rw [show busRead 0x08 t = statusWord t from busRead_offset .status t, hbusy, hdone, herr, hcode,
    h.busy, h.done, h.errCode, herr']
  by_cases hc : code.number = 0 <;> simp [hc]

/-- Settles O12: the listed numbers are those of the codes. -/
theorem completionShowsItsCode : Obligations.CompletionShowsItsCode := by
  intro x hx
  have hnum : x.1.number = x.2 := by
    revert x
    decide
  rw [← hnum]
  exact fun t ht => ht.statusBits

/-! ### The wait for the primitive -/

/-- While a command is in flight no host write moves the phase, the request or `BUSY`: even one to `CMD`
only sets `OVR` (70_reset_and_hazards.md R240). -/
theorem busWrite_inFlight {s : State} (hp : s.phase ≠ .idle) (off : Nat) (v : Word) :
    (busWrite off v s).phase = s.phase ∧ (busWrite off v s).preq = s.preq ∧
      (busWrite off v s).status.busy = s.status.busy := by
  rcases busWrite_cases off v s with h | ⟨hidle, -⟩ | ⟨-, h⟩ | h | ⟨i, h⟩ | ⟨i, h⟩
  case inr.inl => exact absurd hidle hp
  all_goals
    rw [h]
    exact ⟨rfl, rfl, rfl⟩

/-- The host's moves leave a command in flight. -/
theorem hostStep_inFlight {s t : State} (h : hostStep s = .next t) (hp : s.phase ≠ .idle) :
    t.phase = s.phase ∧ t.preq = s.preq ∧ t.status.busy = s.status.busy := by
  rcases hostStep_cases h with rfl | ⟨pos, rfl⟩ | ⟨x, v, rfl⟩ | ⟨off, v, rfl⟩
  · exact ⟨rfl, rfl, rfl⟩
  · exact ⟨rfl, rfl, rfl⟩
  · exact ⟨rfl, rfl, rfl⟩
  · exact busWrite_inFlight hp off v

/-- Settles O16: the unit has no move in `WAIT_PRIM`, the host's leaves the command in flight, and a
late answer is ignored. -/
theorem onlyAnswerOrResetEndsWaiting : Obligations.OnlyAnswerOrResetEndsWaiting := by
  intro p s t h hp hprim hreset
  rcases stepWith_cases h with ⟨-, h⟩ | ⟨hm, -⟩ | ⟨-, h⟩ | ⟨-, rfl⟩ | ⟨hm, -⟩
  · rcases unitStep_cases h with ⟨-, rfl⟩ | ⟨hexec, -⟩ | ⟨hexec, -⟩
    · exact ⟨hp, rfl, rfl⟩
    · exact absurd (hp.symm.trans hexec) (by decide)
    · exact absurd (hp.symm.trans hexec) (by decide)
  · exact absurd hm hprim
  · obtain ⟨hphase, hkeep⟩ := hostStep_inFlight h (by simp [hp])
    exact ⟨hphase.trans hp, hkeep⟩
  · exact ⟨hp, rfl, rfl⟩
  · exact absurd hm hreset

end Sys2Proof.Machine
end

section
/-! SUPPORT. Reset during a command, and the host's writes to the operand registers during one
(70_reset_and_hazards.md): such a write commutes with the command, which reads only its latch, except
where the command overwrites the register. -/

namespace Sys2Proof.Machine

/-! ### Reset -/

theorem primStep_idle (p : FpePrim) {s : State} (hp : s.phase = .idle) : primStep p s = .next s := by
  simp only [primStep, hp]

/-- Settles O15: after reset the unit is in `IDLE`, where the primitive has no move. -/
theorem resetAbortsCommandInFlight : Obligations.ResetAbortsCommandInFlight := fun p s _ =>
  ⟨resetUnit s, rfl, atReset_resetUnit s, primStep_idle p (atReset_resetUnit s).phase,
    fun _ _ => rfl⟩

/-! ### Operand writes -/

/-- The operand registers: `OPA`, `KEYi`, `HEXi` (70_reset_and_hazards.md R241). -/
def Reg.isOperand : Reg → Bool
  | .opa => true
  | .key _ => true
  | .hex _ => true
  | .cmd => false
  | .status => false
  | .res => false

/-- The command, where it succeeds, writes the operand register itself (70_reset_and_hazards.md R242);
`perform_writeReg_lost` and `perform_writeReg_kept` tie it to `perform`. -/
def Overwrites (i : Instr) : Reg → Prop
  | .key _ => i = .fpeClear
  | .hex _ => ∃ n, i = .hexEnc n
  | .opa => False
  | .cmd => False
  | .status => False
  | .res => False

/-- The latched command has no error cause and overwrites the register. -/
def LatchOverwrites (s : State) (r : Reg) : Prop :=
  ∃ i, decode s.latch.cmd = .ok i ∧ Overwrites i r ∧ firstError i s = .none

theorem not_latchOverwrites_opa (s : State) : ¬ LatchOverwrites s .opa := by
  rintro ⟨i, -, h, -⟩
  exact h

/-- `FPE_CLEAR` has no checks, and so always clears the KEY registers. -/
theorem latchOverwrites_key_iff (s : State) (j : Fin 4) :
    LatchOverwrites s (.key j) ↔ decode s.latch.cmd = .ok .fpeClear := by
  constructor
  · rintro ⟨i, hd, rfl, -⟩
    exact hd
  · exact fun hd => ⟨.fpeClear, hd, rfl, rfl⟩

theorem latchOverwrites_hex_iff (s : State) (j : Fin 2) : LatchOverwrites s (.hex j) ↔
    ∃ n, decode s.latch.cmd = .ok (.hexEnc n) ∧ firstError (.hexEnc n) s = .none := by
  constructor
  · rintro ⟨i, hd, ⟨n, rfl⟩, he⟩
    exact ⟨n, hd, he⟩
  · rintro ⟨n, hd, he⟩
    exact ⟨.hexEnc n, hd, ⟨n, rfl⟩, he⟩

theorem perform_writeReg_lost {i : Instr} {r : Reg} (hlost : Overwrites i r) (v : Word) (s : State) :
    perform i (writeReg r v s) = perform i s := by
  cases r with
  | key j =>
    cases hlost
    rfl
  | hex j =>
    obtain ⟨n, rfl⟩ := hlost
    rfl
  | opa | cmd | status | res => cases hlost

section
variable {r : Reg} (hr : r.isOperand = true) (v : Word)
include hr

/-- An operand write leaves all that the moves of the unit and the primitive read. -/
theorem writeReg_operand (s : State) : (writeReg r v s).phase = s.phase ∧
    (writeReg r v s).latch = s.latch ∧ (writeReg r v s).affCtx = s.affCtx ∧
    (writeReg r v s).fpeCtx = s.fpeCtx ∧ (writeReg r v s).preq = s.preq := by
  cases r with
  | opa | key | hex => exact ⟨rfl, rfl, rfl, rfl, rfl⟩
  | cmd | status | res => cases hr

theorem complete_writeReg (code : ErrCode) (s : State) :
    complete code (writeReg r v s) = writeReg r v (complete code s) := by
  cases r with
  | opa | key | hex => rfl
  | cmd | status | res => cases hr

theorem firstError_writeReg (i : Instr) (s : State) :
    firstError i (writeReg r v s) = firstError i s := by
  obtain ⟨-, hl, ha, hf, -⟩ := writeReg_operand hr v s
  exact firstError_congr i hl ha hf

/-- The command reads the latched operands (10_state.md R36), so the write commutes with it. -/
theorem perform_writeReg_kept {i : Instr} {s t : State} (hkept : ¬ Overwrites i r)
    (h : perform i s = .next t) : perform i (writeReg r v s) = .next (writeReg r v t) := by
  cases r with
  | opa => cases i <;> cases h <;> rfl
  | key j =>
    cases i with
    | fpeClear => exact absurd rfl hkept
    | _ => cases h; rfl
  | hex j =>
    cases i with
    | hexEnc n => exact absurd ⟨n, rfl⟩ hkept
    | _ => cases h; rfl
  | cmd | status | res => cases hr

theorem exec_writeReg_kept {i : Instr} {s t : State}
    (hkept : firstError i s = .none → ¬ Overwrites i r) (h : exec i s = .next t) :
    exec i (writeReg r v s) = .next (writeReg r v t) := by
  rw [exec_eq_perform] at h ⊢
  rw [firstError_writeReg hr]
  split at h
  · next hnone =>
    rw [if_pos hnone]
    exact perform_writeReg_kept hr v (hkept hnone) h
  · next herr =>
    rw [if_neg herr]
    cases h
    exact congrArg _ (complete_writeReg hr v _ s)

theorem exec_writeReg_lost {i : Instr} {s : State} (hnone : firstError i s = .none)
    (hlost : Overwrites i r) : exec i (writeReg r v s) = exec i s := by
  rw [exec_eq_perform, exec_eq_perform, firstError_writeReg hr, if_pos hnone, if_pos hnone,
    perform_writeReg_lost hlost]

theorem unitStep_writeReg_kept {s t : State} (hkept : ¬ LatchOverwrites s r)
    (h : unitStep s = .next t) : unitStep (writeReg r v s) = .next (writeReg r v t) := by
  obtain ⟨hphase, hlatch, -⟩ := writeReg_operand hr v s
  unfold unitStep at h ⊢
  rw [hphase, hlatch]
  split at h
  · split at h
    · next i hd =>
      exact exec_writeReg_kept hr v (fun hnone hover => hkept ⟨i, hd, hover, hnone⟩) h
    · cases h
      exact congrArg _ (complete_writeReg hr v _ s)
  · cases h; rfl
  · cases h; rfl

theorem unitStep_writeReg_lost {s : State} (hp : s.phase = .exec) (hlost : LatchOverwrites s r) :
    unitStep (writeReg r v s) = unitStep s := by
  obtain ⟨hphase, hlatch, -⟩ := writeReg_operand hr v s
  obtain ⟨i, hd, hover, hnone⟩ := hlost
  calc unitStep (writeReg r v s) = exec i (writeReg r v s) :=
        unitStep_of_decodes (hphase.trans hp) (hlatch ▸ hd)
    _ = exec i s := exec_writeReg_lost hr v hnone hover
    _ = unitStep s := (unitStep_of_decodes hp hd).symm

/-- The write is lost where the latched command overwrites the register, and else commutes with the
unit's move. -/
theorem unitStep_writeReg {s t : State} (hp : s.phase = .exec) (h : unitStep s = .next t) :
    (LatchOverwrites s r → unitStep (writeReg r v s) = .next t) ∧
    (¬ LatchOverwrites s r → unitStep (writeReg r v s) = .next (writeReg r v t)) :=
  ⟨fun hlost => (unitStep_writeReg_lost hr v hp hlost).trans h,
    fun hkept => unitStep_writeReg_kept hr v hkept h⟩

/-- The answer consumes the request and writes `RES`, no operand register. -/
theorem takeAnswer_writeReg {q : PrimReq} {a : PrimResult q.ld} {s t : State}
    (h : takeAnswer q a s = .next t) : takeAnswer q a (writeReg r v s) = .next (writeReg r v t) := by
  cases r with
  | opa | key | hex => cases a <;> cases h <;> rfl
  | cmd | status | res => cases hr

theorem primStep_writeReg {p : FpePrim} {s t : State} (h : primStep p s = .next t) :
    primStep p (writeReg r v s) = .next (writeReg r v t) := by
  obtain ⟨hphase, -, -, -, hpreq⟩ := writeReg_operand hr v s
  unfold primStep at h ⊢
  rw [hphase, hpreq]
  split at h
  · exact takeAnswer_writeReg hr v h
  · cases h; rfl
  · cases h; rfl
  · cases h; rfl

end

/-- Settles O18: the moves of the unit and the primitive commute with an operand write, but for the
registers that the latched command overwrites. -/
theorem operandWritesSpareTheRunningCommand : Obligations.OperandWritesSpareTheRunningCommand := by
  refine ⟨fun s v => ⟨rfl, fun i => rfl, fun i => rfl⟩, fun s t v hp h => ?_, fun p s t v _ h => ?_⟩
  · refine ⟨unitStep_writeReg_kept rfl v (not_latchOverwrites_opa s) h, fun i => ?_, fun i => ?_⟩
    · rw [ne_eq, ← latchOverwrites_key_iff s i]
      exact unitStep_writeReg rfl v hp h
    · rw [← latchOverwrites_hex_iff s i]
      exact unitStep_writeReg rfl v hp h
  · exact ⟨primStep_writeReg rfl v h, fun i => primStep_writeReg rfl v h,
      fun i => primStep_writeReg rfl v h⟩

end Sys2Proof.Machine
end
